-- ==== Sys2Proof/Word.lean ====
section
/-! DEFINITION. The byte, the byte sequence and its slices: the only data the codec core handles (R12). -/

namespace Sys2Proof

/-- A byte: an unsigned 8-bit value; bit 7 is the most significant (R12, R10 "byte width"). -/
abbrev Byte := BitVec 8

/-- A byte sequence: a finite list of bytes, indexed from 0 (R12). -/
abbrev Bytes := List Byte

/-- `s[i:j]`: the bytes at indices i to j-1, empty when i ≥ j (R12). -/
def slice (s : Bytes) (i j : Nat) : Bytes := (s.take j).drop i

end Sys2Proof
end

