-- ==== Sys2Proof/Config.lean ====
section
/-! DEFINITION. What an implementation of the core fixes: the fixed parameters of R10, the open parameters of R11,
and the free values of the spec's silent corners. -/

namespace Sys2Proof

/-- HEAD, the byte that opens a wire frame in a pair (R10, R70). -/
def HEAD : Byte := 0xAA
/-- TAIL, the byte that closes a wire frame in a pair (R10, R70). -/
def TAIL : Byte := 0x55
/-- ESC, the escape marker (R10, R70). -/
def ESC : Byte := 0xA5

/-- The logical payload's length in bytes (R10, R72). -/
def payloadLen : Nat := 16

/-- The length of a payload's content part in bytes (R10, R72). -/
def contentLen : Nat := 12

/-- Membership in RSV = {0xA5, 0xAA, 0x55} (R70). -/
def isReserved (b : Byte) : Bool := b == ESC || b == HEAD || b == TAIL

/-- The core's open parameters (R11): a model takes each one as an argument. `none` is "unbounded". They are data of
the state, so that a statement about every state is a statement about every choice of them; no step writes them. -/
structure Params where
  /-- ACCUM_CAP: the most bytes RSM.ACCUM may hold. -/
  accumCap : Option Nat
  /-- BUF_CAP: the most bytes one PROCESS input buffer may hold. -/
  bufCap   : Option Nat
  /-- CNT_WIDTH: the width in bits of RSM.POS and RSM.CURSOR. -/
  cntWidth : Option Nat
  /-- LEN_WIDTH in whole bytes: the packet's LEN field is 8·lenBytes bits wide (log entry 5). -/
  lenBytes : Nat
  deriving DecidableEq, Repr

/-- The spec's defaults (R11): unbounded capacities and counters, a 32-bit LEN. -/
def Params.default : Params := { accumCap := none, bufCap := none, cntWidth := none, lenBytes := 4 }

/-- FREE VALUE (log entry 6): what RLEN or FLEN holds in front of a sequence of 2^32 bytes or more, whose length R82's four
bytes cannot say. It may depend on the sequence and on nothing else (R47, R100, R176). -/
opaque Config.wideLength : Bytes → BitVec 32

/-- FREE VALUE (log entry 6): the 32-bit value PROCESS returns for a consumed count of 2^32 or more, where R82's
LE32(consumed) is not defined. It may depend on the input buffer and the count and on nothing else (R176). -/
opaque Config.wideCount : Bytes → Nat → BitVec 32

end Sys2Proof
end

