-- ==== Sys2Proof/Syntax.lean ====
section
/-! DEFINITION. The instructions: one constructor per row of spec/opcode_table.json. Six command operations (R80), and
the rows of the decode tables their semantics dispatch on (R87, R88). -/

namespace Sys2Proof

/-- RSM.MODE's two legal values (R22), a closed enumeration. -/
inductive Mode where
  /-- AWAITING_FRAME_START, encoded 0. -/
  | awaitingFrameStart
  /-- ACCUMULATING_PAYLOAD, encoded 1. -/
  | accumulatingPayload
  deriving DecidableEq, Repr

/-- One constructor per row of the opcode table. A command carries its operand bytes OPD (R83); a byte-case or step-key
row carries the bits its key gives it (R87, R88). -/
inductive Instr where
  /-- ESCAPE, selector 0x01 (R100). -/
  | escape (s : Bytes)
  /-- UNESCAPE, selector 0x02 (R105). -/
  | unescape (s : Bytes)
  /-- CKSUM16, selector 0x03 (R120). -/
  | cksum16 (opd : Bytes)
  /-- ENCODE, selector 0x04 (R140). -/
  | encode (opd : Bytes)
  /-- PROCESS, selector 0x05 (R160). -/
  | process (buf : Bytes)
  /-- RSM_RESET, selector 0x06 (R200); its operand must be empty (R85). -/
  | rsmReset (opd : Bytes)
  /-- ESC.PAIR_A5: ESCAPE's input byte is 0xA5 (R101). -/
  | escPairA5
  /-- ESC.PAIR_AA: ESCAPE's input byte is 0xAA (R101). -/
  | escPairAA
  /-- ESC.PAIR_55: ESCAPE's input byte is 0x55 (R101). -/
  | escPair55
  /-- ESC.LIT: any other input byte of ESCAPE (R102). -/
  | escLit (b : Byte)
  /-- UNESC.DROP: UNESCAPE's input byte is 0xA5 (R106). -/
  | unescDrop
  /-- UNESC.KEEP: any other input byte of UNESCAPE (R107). -/
  | unescKeep (b : Byte)
  /-- CK.STEP: one payload byte into the checksum (R121). -/
  | ckStep (b : Byte)
  /-- RSM.END: no byte remains, in either mode (R168). -/
  | rsmEnd (mode : Mode)
  /-- RSM.AW_SHORT: exactly one byte remains while awaiting (R163). -/
  | rsmAwShort (b0 : Byte)
  /-- RSM.AW_HEAD: HEAD HEAD at the scan position while awaiting (R162). -/
  | rsmAwHead
  /-- RSM.AW_DESYNC: two other bytes at the scan position while awaiting (R164). -/
  | rsmAwDesync (b0 b1 : Byte)
  /-- RSM.AC_LAST: exactly one byte remains while accumulating (R167). -/
  | rsmAcLast (b0 : Byte)
  /-- RSM.AC_TAIL: TAIL TAIL at the scan position while accumulating (R165). -/
  | rsmAcTail
  /-- RSM.AC_APPEND: two other bytes at the scan position while accumulating (R166). -/
  | rsmAcAppend (b0 b1 : Byte)
  deriving DecidableEq, Repr

end Sys2Proof
end

