-- ==== Sys2Proof/WellFormed.lean ====
section
/-! DEFINITION. Well-formedness of instructions: what an encoding can write (R81, R83, R85, R87, R88). -/

namespace Sys2Proof

/-- An operand of `n` bytes can be written in a packet whose LEN field has `lenBytes` bytes (R81; R100: "an over-long
operand cannot be written"). -/
def fitsLen (lenBytes n : Nat) : Bool := decide (n < 256 ^ lenBytes)

/-- The checks on an instruction's operands. For a command: its length is writable and is the one the operation
requires (R83, R85). For a row chosen after others: its operand is none of theirs (R87, R88). -/
def WellFormed (lenBytes : Nat) : Instr → Bool
  | .escape s => fitsLen lenBytes s.length
  | .unescape s => fitsLen lenBytes s.length
  | .cksum16 opd => fitsLen lenBytes opd.length && opd.length == payloadLen
  | .encode opd => fitsLen lenBytes opd.length && opd.length == payloadLen
  | .process buf => fitsLen lenBytes buf.length
  | .rsmReset opd => opd.length == 0
  | .escPairA5 => true
  | .escPairAA => true
  | .escPair55 => true
  | .escLit b => !isReserved b
  | .unescDrop => true
  | .unescKeep b => !(b == ESC)
  | .ckStep _ => true
  | .rsmEnd _ => true
  | .rsmAwShort _ => true
  | .rsmAwHead => true
  | .rsmAwDesync b0 b1 => !(b0 == HEAD && b1 == HEAD)
  | .rsmAcLast _ => true
  | .rsmAcTail => true
  | .rsmAcAppend b0 b1 => !(b0 == TAIL && b1 == TAIL)

end Sys2Proof
end

