-- ==== Sys2Proof/Decode.lean ====
section
/-! DEFINITION. Decoding and encoding: the command packet (R80, R81, R83), the byte cases (R87) and the Reassembler's
step key (R88); little-endian helpers (R13, R81). -/

namespace Sys2Proof

/-- The `k` bytes of `n` in little-endian order, low byte first; higher bits do not show (R13, R81). -/
def leBytes : Nat → Nat → Bytes
  | 0, _ => []
  | k + 1, n => BitVec.ofNat 8 n :: leBytes k (n / 256)

/-- The number a little-endian byte sequence spells (R81). -/
def leNat : Bytes → Nat
  | [] => 0
  | b :: bs => b.toNat + 256 * leNat bs

/-- `LE32(v) = [v[7:0], v[15:8], v[23:16], v[31:24]]` (R13). -/
def le32 (v : BitVec 32) : Bytes :=
  [v.extractLsb' 0 8, v.extractLsb' 8 8, v.extractLsb' 16 8, v.extractLsb' 24 8]

/-- Which decode table a code belongs to: the "format" column of the opcode table. The same byte value means different
things in different tables, and the operation in progress says which table is read (R87). -/
inductive Code where
  /-- cmd-packet: a command packet on the command port (R81). -/
  | packet (bytes : Bytes)
  /-- esc-byte: an input byte of ESCAPE (R87). -/
  | escByte (b : Byte)
  /-- unesc-byte: an input byte of UNESCAPE (R87). -/
  | unescByte (b : Byte)
  /-- ck-byte: a payload byte of the checksum (R87). -/
  | ckByte (b : Byte)
  /-- rsm-step: the Reassembler's 19-bit step key (R88). -/
  | stepKey (key : BitVec 19)
  deriving DecidableEq, Repr

/-- Why a code decodes to no instruction. -/
inductive DecodeError where
  /-- OP is 0x00 or 0x07-0xFF (R84). -/
  | badSelector
  /-- The packet is not exactly OP, LEN and LEN operand bytes (R81). -/
  | malformedPacket
  /-- AVAIL = 0b11, which "is never formed" (R88). -/
  | keyNeverFormed
  deriving DecidableEq, Repr

/-- The operation a selector names, given the operand bytes; `none` for the reserved selectors (R80, R84). -/
def commandOf (op : Byte) (opd : Bytes) : Option Instr :=
  if op = 0x01 then some (.escape opd)
  else if op = 0x02 then some (.unescape opd)
  else if op = 0x03 then some (.cksum16 opd)
  else if op = 0x04 then some (.encode opd)
  else if op = 0x05 then some (.process opd)
  else if op = 0x06 then some (.rsmReset opd)
  else none

/-- A command packet: `OP(1) ‖ LEN(lenBytes, little-endian) ‖ OPD`, exactly `1 + lenBytes + LEN` bytes (R81). The selector
is checked first (R214). The length an operation requires of its operand (R85) is checked by its meaning. -/
def decodePacket (lenBytes : Nat) : Bytes → Except DecodeError Instr
  | [] => .error .malformedPacket
  | op :: body =>
    match commandOf op (body.drop lenBytes) with
    | none => .error .badSelector
    | some i =>
      if lenBytes ≤ body.length ∧ (body.drop lenBytes).length = leNat (body.take lenBytes) then .ok i
      else .error .malformedPacket

/-- ESCAPE's byte cases: the three ESC.PAIR rows, then ESC.LIT (R87). -/
def decodeEscByte (b : Byte) : Instr :=
  if b = 0xA5 then .escPairA5
  else if b = 0xAA then .escPairAA
  else if b = 0x55 then .escPair55
  else .escLit b

/-- UNESCAPE's byte cases: UNESC.DROP, then UNESC.KEEP (R87). -/
def decodeUnescByte (b : Byte) : Instr := if b = 0xA5 then .unescDrop else .unescKeep b

/-- The checksum's one byte case (R87). -/
def decodeCkByte (b : Byte) : Instr := .ckStep b

/-- KEY[16] of a mode (R88, R22). -/
def modeBit : Mode → BitVec 1
  | .awaitingFrameStart => 0
  | .accumulatingPayload => 1

/-- The mode KEY[16] stands for (R88). -/
def modeOfBit (b : BitVec 1) : Mode := if b = 1 then .accumulatingPayload else .awaitingFrameStart

/-- KEY = AVAIL[18:17] ‖ MODE[16] ‖ B0[15:8] ‖ B1[7:0] (R88). -/
def packKey (avail : BitVec 2) (mode : Mode) (b0 b1 : Byte) : BitVec 19 := avail ++ modeBit mode ++ b0 ++ b1

/-- KEY[16] as a mode (R88). -/
def keyMode (k : BitVec 19) : Mode := modeOfBit (k.extractLsb' 16 1)
/-- KEY[15:8] (R88). -/
def keyB0 (k : BitVec 19) : Byte := k.extractLsb' 8 8
/-- KEY[7:0] (R88). -/
def keyB1 (k : BitVec 19) : Byte := k.extractLsb' 0 8

/-- The first row of R88's table, in its order, whose `(KEY & mask) = match`. -/
def decodeStepKey (k : BitVec 19) : Except DecodeError Instr :=
  if k &&& 0x60000 = 0x00000 then .ok (.rsmEnd (keyMode k))
  else if k &&& 0x70000 = 0x20000 then .ok (.rsmAwShort (keyB0 k))
  else if k &&& 0x7FFFF = 0x4AAAA then .ok .rsmAwHead
  else if k &&& 0x70000 = 0x40000 then .ok (.rsmAwDesync (keyB0 k) (keyB1 k))
  else if k &&& 0x70000 = 0x30000 then .ok (.rsmAcLast (keyB0 k))
  else if k &&& 0x7FFFF = 0x55555 then .ok .rsmAcTail
  else if k &&& 0x70000 = 0x50000 then .ok (.rsmAcAppend (keyB0 k) (keyB1 k))
  else .error .keyNeverFormed

/-- Decoding: total on every code of every table, rejecting by name. -/
def decode (lenBytes : Nat) : Code → Except DecodeError Instr
  | .packet bytes => decodePacket lenBytes bytes
  | .escByte b => .ok (decodeEscByte b)
  | .unescByte b => .ok (decodeUnescByte b)
  | .ckByte b => .ok (decodeCkByte b)
  | .stepKey k => decodeStepKey k

/-- A command packet of selector `op` and operand `opd` (R81). -/
def packetOf (lenBytes : Nat) (op : Byte) (opd : Bytes) : Bytes := op :: (leBytes lenBytes opd.length ++ opd)

/-- The code of an instruction, written from the same tables (R80, R81, R87, R88). Key bits that R88 leaves 0x00 for want
of bytes are 0. -/
def encode (lenBytes : Nat) : Instr → Code
  | .escape s => .packet (packetOf lenBytes 0x01 s)
  | .unescape s => .packet (packetOf lenBytes 0x02 s)
  | .cksum16 opd => .packet (packetOf lenBytes 0x03 opd)
  | .encode opd => .packet (packetOf lenBytes 0x04 opd)
  | .process buf => .packet (packetOf lenBytes 0x05 buf)
  | .rsmReset opd => .packet (packetOf lenBytes 0x06 opd)
  | .escPairA5 => .escByte 0xA5
  | .escPairAA => .escByte 0xAA
  | .escPair55 => .escByte 0x55
  | .escLit b => .escByte b
  | .unescDrop => .unescByte 0xA5
  | .unescKeep b => .unescByte b
  | .ckStep b => .ckByte b
  | .rsmEnd mode => .stepKey (packKey 0b00 mode 0 0)
  | .rsmAwShort b0 => .stepKey (packKey 0b01 .awaitingFrameStart b0 0)
  | .rsmAwHead => .stepKey (packKey 0b10 .awaitingFrameStart 0xAA 0xAA)
  | .rsmAwDesync b0 b1 => .stepKey (packKey 0b10 .awaitingFrameStart b0 b1)
  | .rsmAcLast b0 => .stepKey (packKey 0b01 .accumulatingPayload b0 0)
  | .rsmAcTail => .stepKey (packKey 0b10 .accumulatingPayload 0x55 0x55)
  | .rsmAcAppend b0 b1 => .stepKey (packKey 0b10 .accumulatingPayload b0 b1)

/-- The code an opcode-table word of `nbits` bits stands for (log entry 8). Up to 8 bits: a selector of R80 with LEN = 0,
or, for a byte that is no selector, an input byte of ESCAPE. From 9 to 32 bits: a step key of 19 bits. Longer: a command
packet laid out byte by byte, its first byte the word's low byte. `none` for a word with bits its code has no place for. -/
def tableCode (nbits w : Nat) : Option Code :=
  if nbits ≤ 8 then
    if 256 ≤ w then none
    else if (commandOf (BitVec.ofNat 8 w) []).isSome then
      some (.packet (packetOf Params.default.lenBytes (BitVec.ofNat 8 w) []))
    else some (.escByte (BitVec.ofNat 8 w))
  else if nbits ≤ 32 then
    if 524288 ≤ w then none else some (.stepKey (BitVec.ofNat 19 w))
  else some (.packet (leBytes (max 5 (nbits / 8)) w))

/-- What the decoder reads from an opcode-table word; `none` where it refuses. -/
def decodeTableWord (nbits w : Nat) : Option Instr :=
  (tableCode nbits w).bind fun c => (decode Params.default.lenBytes c).toOption

end Sys2Proof
end

