-- ==== Sys2Proof/Machine/State.lean ====
section
/-! DEFINITION. The machine's state as plain data (10_state.md R20-R28, 20_memory.md R40), the reasons a step can stop
(60_exceptions.md R212, R213), and the state after reset (R240). -/

namespace Sys2Proof.Machine

/-- The operation in progress, with the parts of its operand and result sequences still being walked (R40 c). Operations
are atomic (R47), so this is `idle` before and after every command; it is the model's own, and lets one byte case or one
Reassembler step be executed and observed by itself (log entry 2). -/
inductive Op where
  /-- No operation is in progress. -/
  | idle
  /-- Inside ESCAPE's loop: the input bytes still to read, the output so far (R100). -/
  | escape (rest out : Bytes)
  /-- Inside UNESCAPE's loop: the input bytes still to read, the output so far (R105). -/
  | unescape (rest out : Bytes)
  /-- Inside CKSUM16's loop: the payload bytes still to add (R120). -/
  | cksum (rest : Bytes)
  /-- Inside ENCODE's step 2: the payload, and its bytes still to add (R140). -/
  | encodeSum (payload rest : Bytes)
  /-- Inside ENCODE's step 3: the payload bytes still to escape, the output so far (R140). -/
  | encodeEsc (rest out : Bytes)
  /-- Inside PROCESS's loop over the input buffer (R160). -/
  | process
  /-- PROCESS's loop has stopped; its result is still to return (R163, R164, R168, R169). -/
  | processDone
  deriving DecidableEq, Repr

/-- What a host agent or the transport does to the core: the rows of R64's table and the pseudo-operations of R89-R91. -/
inductive Request where
  /-- Either agent issues a command packet (R81). -/
  | packet (bytes : Bytes)
  /-- The same packet, its operation run one inner step at a time (the model's own; log entry 2). -/
  | stepwise (bytes : Bytes)
  /-- The sender's pseudo-operation ENCODE_CAN id, data (R89). -/
  | encodeCan (id : BitVec 32) (data : Bytes)
  /-- The sender's pseudo-operation ENCODE_CTRL cmd [, param] (R90). -/
  | encodeCtrl (cmd : BitVec 32) (param : Option (BitVec 32))
  /-- The receiver's pseudo-operation RECV: one receive iteration on the chunk `readChunk` returned (R56, R91). -/
  | recv (chunk : Bytes)
  /-- The sender writes a byte sequence to the transport, whole; `ok` says whether the transport took it (R58, R62, R63). -/
  | write (frame : Bytes) (ok : Bool)
  /-- The host opens a connection; `ok` says whether the device could be claimed (R62, R63, R243). -/
  | openConn (ok : Bool)
  /-- The host closes the connection (R61). -/
  | closeConn
  deriving DecidableEq, Repr

/-- What the core puts out: FRAME_OUT events and responses, with the 32-bit length each carries in front (R82). -/
inductive PortEvent where
  /-- A FRAME_OUT event: FLEN and the bytes of one raw frame. -/
  | frame (flen : BitVec 32) (bytes : Bytes)
  /-- A response: RLEN and the result bytes of one operation. -/
  | response (rlen : BitVec 32) (bytes : Bytes)
  deriving DecidableEq, Repr

/-- The state of one core with its host (R20, R28, R40, R81, R82, R213, R11). -/
structure State where
  /-- The implementation parameters (R11). No step writes them. -/
  params       : Params
  /-- RSM.MODE (R22). -/
  rsmMode      : Mode
  /-- RSM.ACCUM, the in-progress raw frame in arrival order (R23). -/
  rsmAccum     : Bytes
  /-- RSM.POS, the scan position: the next byte a step examines (R24). -/
  rsmPos       : Nat
  /-- RSM.CURSOR, the consumed cursor (R25). -/
  rsmCursor    : Nat
  /-- CK.ACC, the Checksum Unit's accumulator (R26). -/
  ckAcc        : Byte
  /-- EMITTED, the log of FRAME_OUT, oldest first (R27). -/
  emitted      : List Bytes
  /-- The model's fault mark (R213). -/
  faultMark    : Bool
  /-- The input buffer of the current or last PROCESS (R40 a, R33); empty after RSM_RESET and reset. -/
  buf          : Bytes
  /-- The operation in progress (R40 c, R47). -/
  op           : Op
  /-- The requests still to be served, oldest first: the one total order of the agents' operations (R47, D1). -/
  inbox        : List Request
  /-- Everything the core has put out on its ports, in order (R82, R171). -/
  portLog      : List PortEvent
  /-- HOST.RETAINED, the receive buffer the host holds (R28). -/
  hostRetained : Bytes
  /-- The transmit stream: what the sender has written to the transport, in order (R28). -/
  txStream     : List Bytes
  deriving DecidableEq, Repr

/-- Why the machine stops with a fault. -/
inductive Fault where
  /-- `fault(CapacityExceeded)` (R173, R213): raised by PROCESS, and only where a finite parameter of R11 is exceeded.
  `left` is the state the fault leaves: the one before the failing check or AccAppend, with the fault mark set (R216).
  A machine whose fault mark is set raises it again at every step (R213, R217). Safe: the machine stops. -/
  | capacityExceeded (left : State)
  deriving DecidableEq, Repr

/-- Why an instruction or a request gets no meaning; the state stays as it was (R212). -/
inductive Refusal where
  /-- An instruction this model has no meaning for; no arm of exec answers it. Safe. -/
  | notModelled (mnemonic : String)
  /-- `refuse(BadSelector)`: OP is 0x00 or 0x07-0xFF (R84, R212). Raised by the command port. Safe. -/
  | badSelector
  /-- `refuse(BadLength)`: LEN is not the one the operation requires (R85, R212). Raised by CKSUM16, ENCODE and
  RSM_RESET. Safe. -/
  | badLength
  /-- `refuse(BadOperand)`: ENCODE_CAN was given other than 8 data bytes (R89, R212). Safe. -/
  | badOperand
  /-- A packet that is not exactly `5 + LEN` bytes long (R81; log entry 7). Raised by the command port. Safe. -/
  | malformedPacket
  /-- A byte-case or step-key row executed where it is not the row the operation in progress selects (R87, R88; log
  entry 3). A run never raises it. Safe. -/
  | stepNotSelected
  deriving DecidableEq, Repr

/-- The machine right after reset (R20, R240), with the default parameters (R11) and a host that has done nothing yet: its
retained bytes, to which the spec gives a value at connection open only, are empty before any opening too (DESIGN CHOICE: log
entry 21), and so is the transmit stream (log entry 14). -/
def State.reset : State where
  params := Params.default
  rsmMode := .awaitingFrameStart
  rsmAccum := []
  rsmPos := 0
  rsmCursor := 0
  ckAcc := 0
  emitted := []
  faultMark := false
  buf := []
  op := .idle
  inbox := []
  portLog := []
  hostRetained := []
  txStream := []

end Sys2Proof.Machine
end

