-- ==== Sys2Proof/Machine/Ops.lean ====
section
/-! DEFINITION. The shared operations: the response and frame ports, the fault, the input buffer and the step key, the
Reassembler's register updates, the steps inside an operation, and the reset event. -/

namespace Sys2Proof.Machine

/-! ### The output ports -/

/-- The four-byte length in front of a response or an event (R82); free where the length does not fit (log entry 6). -/
def lengthField (v : Bytes) : BitVec 32 :=
  if v.length < 2 ^ 32 then BitVec.ofNat 32 v.length else Config.wideLength v

/-- The 32-bit consumed count PROCESS returns for a buffer (R82, R169); free where the count does not fit (log entry 6). It
depends on the buffer and the count alone (R176). -/
def countField (buf : Bytes) (n : Nat) : BitVec 32 :=
  if n < 2 ^ 32 then BitVec.ofNat 32 n else Config.wideCount buf n

/-- The bytes of a port event: FLEN or RLEN little-endian, then the frame or the result (R82). -/
def PortEvent.wire : PortEvent → Bytes
  | .frame flen bytes => le32 flen ++ bytes
  | .response rlen bytes => le32 rlen ++ bytes

/-- `return v`: the result goes out on the response port (R14, R82). -/
def respond (v : Bytes) (s : State) : State :=
  { s with portLog := s.portLog ++ [.response (lengthField v) v] }

/-- `emit(f)`: one event on FRAME_OUT, appended to EMITTED (R14, R27). -/
def emit (f : Bytes) (s : State) : State :=
  { s with emitted := s.emitted ++ [f], portLog := s.portLog ++ [.frame (lengthField f) f] }

/-! ### The fault -/

/-- The state a fault leaves: unchanged but for the fault mark (R213, R216). -/
def markFault (s : State) : State := { s with faultMark := true }

/-- `fault(CapacityExceeded)` at state `s` (R213, R216). The core has no exception entry and no return from one
(R216, R217): this is all that a fault does. -/
def raiseCapacity (s : State) : Host.Outcome State Fault Refusal := .fault (.capacityExceeded (markFault s))

/-- Whether an operand of `n` bytes exceeds BUF_CAP or a finite CNT_WIDTH (R173). -/
def overCapacity (p : Params) (n : Nat) : Bool :=
  (match p.bufCap with | none => false | some cap => decide (cap < n)) ||
  (match p.cntWidth with | none => false | some w => decide (2 ^ w ≤ n))

/-- Whether RSM.ACCUM already holds ACCUM_CAP bytes (R173). -/
def accumFull (s : State) : Bool :=
  match s.params.accumCap with | none => false | some cap => decide (cap ≤ s.rsmAccum.length)

/-! ### The input buffer and the step key -/

/-- `BufRead(p)` (R14, R41). Every read is at `p < len(buf)`; elsewhere it is 0x00, the value R88 gives B0 and B1 where no
byte remains. -/
def bufRead (s : State) (p : Nat) : Byte := s.buf.getD p 0

/-- The bytes that remain from RSM.POS on: `rem` of R160. -/
def remaining (s : State) : Nat := s.buf.length - s.rsmPos

/-- KEY[18:17]: none, one, or two or more bytes remain (R88). -/
def avail (s : State) : BitVec 2 :=
  if remaining s = 0 then 0b00 else if remaining s = 1 then 0b01 else 0b10

/-- The step key of R88: B0 is 0x00 where no byte remains, B1 where fewer than two do. -/
def stepKey (s : State) : BitVec 19 :=
  packKey (avail s) s.rsmMode
    (if avail s = 0b00 then 0 else bufRead s s.rsmPos)
    (if avail s = 0b10 then bufRead s (s.rsmPos + 1) else 0)

/-! ### The Reassembler's registers -/

/-- The four Reassembler registers at their start values: the start of PROCESS (R161), RSM_RESET (R200) and reset
(R240); `buf` becomes the buffer they now describe (R33). -/
def initReassembler (buf : Bytes) (s : State) : State :=
  { s with rsmMode := .awaitingFrameStart, rsmAccum := [], rsmPos := 0, rsmCursor := 0, buf := buf }

/-- The effect of RSM.AW_HEAD: past HEAD HEAD, into ACCUMULATING_PAYLOAD (R162). -/
def enterFrame (s : State) : State :=
  { s with rsmPos := s.rsmPos + 2, rsmMode := .accumulatingPayload }

/-- `AccAppend(b)` and one byte on, where there is room (R14, R166, R167). -/
def appendByte (b : Byte) (s : State) : State :=
  { s with rsmAccum := s.rsmAccum ++ [b], rsmPos := s.rsmPos + 1 }

/-- The effect of RSM.AC_TAIL, in R165's order: emit, clear, past TAIL TAIL, record the cursor, back to awaiting. -/
def closeFrame (s : State) : State :=
  { emit s.rsmAccum s with
    rsmAccum := [], rsmPos := s.rsmPos + 2, rsmCursor := s.rsmPos + 2, rsmMode := .awaitingFrameStart }

/-- PROCESS's result: RSM.CURSOR as LE32 on the response port (R82, R169). -/
def returnCursor (s : State) : State := respond (le32 (countField s.buf s.rsmCursor)) s

/-! ### The steps inside an operation -/

/-- The row the operation in progress selects: the byte case of its next byte (R87), or the row of the step key (R88);
`none` when no operation is in progress or its loop is over. -/
def nextRow (s : State) : Option Instr :=
  match s.op with
  | .idle => none
  | .escape [] _ => none
  | .escape (b :: _) _ => some (decodeEscByte b)
  | .unescape [] _ => none
  | .unescape (b :: _) _ => some (decodeUnescByte b)
  | .cksum [] => none
  | .cksum (b :: _) => some (decodeCkByte b)
  | .encodeSum _ [] => none
  | .encodeSum _ (b :: _) => some (decodeCkByte b)
  | .encodeEsc [] _ => none
  | .encodeEsc (b :: _) _ => some (decodeEscByte b)
  | .process => (decodeStepKey (stepKey s)).toOption
  | .processDone => none

/-- A row is executed where it is the one selected, and nowhere else (log entry 3). -/
def whenSelected (row : Instr) (s : State) (o : Host.Outcome State Fault Refusal) :
    Host.Outcome State Fault Refusal :=
  if nextRow s = some row then o else .refused .stepNotSelected

/-- One input byte read, `add` appended to the output: a byte case of ESCAPE, UNESCAPE or ENCODE's step 3 (R87). -/
def Op.consume (add : Bytes) : Op → Op
  | .escape rest out => .escape rest.tail (out ++ add)
  | .unescape rest out => .unescape rest.tail (out ++ add)
  | .encodeEsc rest out => .encodeEsc rest.tail (out ++ add)
  | .cksum rest => .cksum rest.tail
  | .encodeSum payload rest => .encodeSum payload rest.tail
  | .idle => .idle
  | .process => .process
  | .processDone => .processDone

/-- A byte case that contributes `add` to the output (R101, R102, R106, R107). -/
def contribute (add : Bytes) (s : State) : State := { s with op := s.op.consume add }

/-- The loop of PROCESS stops; nothing else changes (R163, R164, R168). -/
def stopLoop (s : State) : State := { s with op := .processDone }

/-! ### Reset -/

/-- Reset, the event from outside (R240): every element of R20 at its reset value, the fault mark cleared. An operation in
progress is dropped without emission (R241). The parameters, the requests and the host's own state are not the core's to
reset (R241); the record of the ports starts again with EMITTED (log entry 4). -/
def hardReset (s : State) : State :=
  { initReassembler [] s with ckAcc := 0, emitted := [], faultMark := false, op := .idle, portLog := [] }

end Sys2Proof.Machine
end

