-- ==== Sys2Proof/Machine/Operands.lean ====
section
/-! DEFINITION. Operand forms: the 16-byte logical payload and its fields (R72, R83), and the payloads of the
pseudo-operations ENCODE_CAN and ENCODE_CTRL (R77, R78). -/

namespace Sys2Proof.Machine

/-- The fields of a logical payload (R72). The core gives none of them a meaning of its own. -/
structure LogicalPayload where
  /-- Payload bytes 0 to 11. -/
  content : Bytes
  /-- Payload byte 12. -/
  dataLen : Byte
  /-- Payload byte 13. -/
  channel : Byte
  /-- Payload byte 14. -/
  format  : Byte
  /-- Payload byte 15. -/
  type    : Byte
  deriving DecidableEq, Repr

/-- `P = content ++ [dataLen, channel, format, type]` (R72). -/
def LogicalPayload.bytes (p : LogicalPayload) : Bytes := p.content ++ [p.dataLen, p.channel, p.format, p.type]

/-- ENCODE's operand as fields: content = OPD[0..11], then one byte each (R83). -/
def payloadOfOperand (opd : Bytes) : LogicalPayload where
  content := slice opd 0 contentLen
  dataLen := opd.getD 12 0
  channel := opd.getD 13 0
  format := opd.getD 14 0
  type := opd.getD 15 0

/-- The CAN data payload of ENCODE_CAN (R77, R89). -/
def canPayload (id : BitVec 32) (data : Bytes) : LogicalPayload where
  content := le32 id ++ data
  dataLen := 0x08
  channel := 0x00
  format := 0x00
  type := 0x00

/-- The control payload of ENCODE_CTRL; an absent parameter is 0 (R78, R90). -/
def ctrlPayload (cmd : BitVec 32) (param : Option (BitVec 32)) : LogicalPayload where
  content := le32 cmd ++ le32 (param.getD 0) ++ [0x00, 0x00, 0x00, 0x00]
  dataLen := 0x04
  channel := 0xFF
  format := 0x01
  type := 0x01

end Sys2Proof.Machine
end

