-- ==== Sys2Proof/Machine/Checksum.lean ====
section
/-! DEFINITION. The Checksum Unit: CKSUM16 (R120) and its step CK.STEP (R121). -/

namespace Sys2Proof.Machine

/-- CK.STEP on the accumulator: `(acc + b) mod 256` (R121). -/
def ckAdd (acc b : Byte) : Byte := acc + b

/-- The checksum: from 0x00, each byte added in order (R120, R122). -/
def checksum (p : Bytes) : Byte := p.foldl ckAdd 0x00

/-- CK.ACC cleared and the payload's bytes added (R120, R122): what CKSUM16 and ENCODE leave in it. -/
def sumInto (p : Bytes) (s : State) : State := { s with ckAcc := checksum p }

/-- CKSUM16 (R120): CK.ACC becomes the checksum, which is the result; another operand length is refused (R85). -/
def execCksum16 (opd : Bytes) (s : State) : Host.Outcome State Fault Refusal :=
  if opd.length = payloadLen then .next (respond [checksum opd] (sumInto opd s)) else .refused .badLength

/-- CK.STEP (R121): one payload byte added into CK.ACC. -/
def execCkStep (b : Byte) (s : State) : Host.Outcome State Fault Refusal :=
  whenSelected (.ckStep b) s (.next { contribute [] s with ckAcc := ckAdd s.ckAcc b })

end Sys2Proof.Machine
end

