-- ==== Sys2Proof/Machine/EscapeCodec.lean ====
section
/-! DEFINITION. The Escape Codec: ESCAPE and UNESCAPE (R100, R105) and their byte cases (R101, R102, R106, R107). -/

namespace Sys2Proof.Machine

/-- ESCAPE's loop (R100): ESC before each reserved byte, every byte unchanged. -/
def escape : Bytes → Bytes
  | [] => []
  | b :: s => if b = 0xA5 ∨ b = 0xAA ∨ b = 0x55 then 0xA5 :: b :: escape s else b :: escape s

/-- UNESCAPE's loop (R105): every 0xA5 dropped, whatever stands around it. -/
def unescape : Bytes → Bytes
  | [] => []
  | b :: s => if b = 0xA5 then unescape s else b :: unescape s

/-- ESCAPE (R100): returns `escape(s)`; writes no element of the core's state. -/
def execEscape (x : Bytes) (s : State) : Host.Outcome State Fault Refusal := .next (respond (escape x) s)

/-- UNESCAPE (R105): returns `unescape(s)`; writes no element of the core's state. -/
def execUnescape (x : Bytes) (s : State) : Host.Outcome State Fault Refusal := .next (respond (unescape x) s)

/-- ESC.PAIR_A5 (R101): contributes `[0xA5, 0xA5]`. -/
def execEscPairA5 (s : State) : Host.Outcome State Fault Refusal :=
  whenSelected .escPairA5 s (.next (contribute [0xA5, 0xA5] s))

/-- ESC.PAIR_AA (R101): contributes `[0xA5, 0xAA]`. -/
def execEscPairAA (s : State) : Host.Outcome State Fault Refusal :=
  whenSelected .escPairAA s (.next (contribute [0xA5, 0xAA] s))

/-- ESC.PAIR_55 (R101): contributes `[0xA5, 0x55]`. -/
def execEscPair55 (s : State) : Host.Outcome State Fault Refusal :=
  whenSelected .escPair55 s (.next (contribute [0xA5, 0x55] s))

/-- ESC.LIT (R102): contributes the byte itself. -/
def execEscLit (b : Byte) (s : State) : Host.Outcome State Fault Refusal :=
  whenSelected (.escLit b) s (.next (contribute [b] s))

/-- UNESC.DROP (R106): contributes nothing. -/
def execUnescDrop (s : State) : Host.Outcome State Fault Refusal :=
  whenSelected .unescDrop s (.next (contribute [] s))

/-- UNESC.KEEP (R107): contributes the byte itself. -/
def execUnescKeep (b : Byte) (s : State) : Host.Outcome State Fault Refusal :=
  whenSelected (.unescKeep b) s (.next (contribute [b] s))

end Sys2Proof.Machine
end

