-- ==== Sys2Proof/Machine/FrameEncoder.lean ====
section
/-! DEFINITION. The Frame Encoder: ENCODE (R140) and the wire frame's layout (R71). -/

namespace Sys2Proof.Machine

/-- A wire frame's layout around an escaped payload and its raw checksum (R71, R76). -/
def frameAround (e : Bytes) (k : Byte) : Bytes := [HEAD, HEAD] ++ e ++ [k] ++ [TAIL, TAIL]

/-- The wire frame of a logical payload: `AA AA ++ escape(P) ++ [checksum(P)] ++ 55 55` (R71, R140). -/
def wireFrame (p : Bytes) : Bytes := frameAround (escape p) (checksum p)

/-- ENCODE (R140): the payload from its fields, its checksum (written to CK.ACC), its escaped form, the frame. No field
value is checked (R141); an operand of other than 16 bytes is refused (R85). -/
def execEncode (opd : Bytes) (s : State) : Host.Outcome State Fault Refusal :=
  if opd.length = payloadLen then
    .next (respond (wireFrame (payloadOfOperand opd).bytes) (sumInto (payloadOfOperand opd).bytes s))
  else .refused .badLength

end Sys2Proof.Machine
end

