-- ==== Sys2Proof/Machine/Reassembler.lean ====
section
/-! DEFINITION. The Stream Reassembler: PROCESS (R160) and its steps (R162-R168). PROCESS is written from R160's
pseudocode; each step row is written from its own rule and selected by R88's key. -/

namespace Sys2Proof.Machine

/-- How one pass of PROCESS's loop ends. -/
inductive Pass where
  /-- The loop goes on. -/
  | go (s : State)
  /-- The loop stops. -/
  | stop (s : State)
  /-- AccAppend found RSM.ACCUM full; the state is the one before it (R173, R216). -/
  | full (s : State)

/-- `AccAppend(BufRead(RSM.POS)); RSM.POS <- RSM.POS + 1` (R160). -/
def passAppend (s : State) : Pass := if accumFull s then .full s else .go (appendByte (bufRead s s.rsmPos) s)

/-- One pass of the loop of R160. -/
def loopPass (s : State) : Pass :=
  match s.rsmMode with
  | .awaitingFrameStart =>
    if remaining s = 0 then .stop s
    else if remaining s = 1 then .stop s
    else if bufRead s s.rsmPos = 0xAA ∧ bufRead s (s.rsmPos + 1) = 0xAA then .go (enterFrame s)
    else .stop s
  | .accumulatingPayload =>
    if remaining s = 0 then .stop s
    else if remaining s = 1 then passAppend s
    else if bufRead s s.rsmPos = 0x55 ∧ bufRead s (s.rsmPos + 1) = 0x55 then .go (closeFrame s)
    else passAppend s

/-- The loop of R160, at most `fuel` passes; `len(buf) + 1` are enough (R174). -/
def runLoop : Nat → State → Pass
  | 0, s => .go s
  | fuel + 1, s =>
    match loopPass s with
    | .go t => runLoop fuel t
    | .stop t => .stop t
    | .full t => .full t

/-- What PROCESS answers when its loop has ended (R169, R173). -/
def Pass.outcome : Pass → Host.Outcome State Fault Refusal
  | .go t => .next (returnCursor t)
  | .stop t => .next (returnCursor t)
  | .full t => raiseCapacity t

/-- PROCESS (R160): the capacity check on the operand before any state is written (R173, R214), the start state (R161),
the loop, the result. -/
def execProcess (buf : Bytes) (s : State) : Host.Outcome State Fault Refusal :=
  if overCapacity s.params buf.length then raiseCapacity s
  else (runLoop (buf.length + 1) (initReassembler buf s)).outcome

/-- RSM.END (R168): no byte remains; the loop stops. -/
def execRsmEnd (mode : Mode) (s : State) : Host.Outcome State Fault Refusal :=
  whenSelected (.rsmEnd mode) s (.next (stopLoop s))

/-- RSM.AW_SHORT (R163): the loop stops and nothing changes. -/
def execRsmAwShort (b0 : Byte) (s : State) : Host.Outcome State Fault Refusal :=
  whenSelected (.rsmAwShort b0) s (.next (stopLoop s))

/-- RSM.AW_HEAD (R162): past HEAD HEAD, into ACCUMULATING_PAYLOAD. -/
def execRsmAwHead (s : State) : Host.Outcome State Fault Refusal :=
  whenSelected .rsmAwHead s (.next (enterFrame s))

/-- RSM.AW_DESYNC (R164): the loop stops and nothing changes; no byte is skipped. -/
def execRsmAwDesync (b0 b1 : Byte) (s : State) : Host.Outcome State Fault Refusal :=
  whenSelected (.rsmAwDesync b0 b1) s (.next (stopLoop s))

/-- AccAppend as a step of its own: the append, or the fault (R166, R167, R173). -/
def stepAppend (b : Byte) (s : State) : Host.Outcome State Fault Refusal :=
  if accumFull s then raiseCapacity s else .next (appendByte b s)

/-- RSM.AC_LAST (R167): the last byte is appended; the next step is RSM.END. -/
def execRsmAcLast (b0 : Byte) (s : State) : Host.Outcome State Fault Refusal :=
  whenSelected (.rsmAcLast b0) s (stepAppend b0 s)

/-- RSM.AC_TAIL (R165): the accumulated bytes are emitted as one raw frame. -/
def execRsmAcTail (s : State) : Host.Outcome State Fault Refusal :=
  whenSelected .rsmAcTail s (.next (closeFrame s))

/-- RSM.AC_APPEND (R166): the byte is appended, whatever its value. -/
def execRsmAcAppend (b0 b1 : Byte) (s : State) : Host.Outcome State Fault Refusal :=
  whenSelected (.rsmAcAppend b0 b1) s (stepAppend b0 s)

end Sys2Proof.Machine
end

