-- ==== Sys2Proof/Machine/SystemOps.lean ====
section
/-! DEFINITION. The one system operation: RSM_RESET (R200, R201). -/

namespace Sys2Proof.Machine

/-- RSM_RESET (R200): the Reassembler's registers at their start values, the in-progress frame discarded and not emitted,
an empty response; an operand is refused (R85). -/
def execRsmReset (opd : Bytes) (s : State) : Host.Outcome State Fault Refusal :=
  if opd.length = 0 then .next (respond [] (initReassembler [] s)) else .refused .badLength

end Sys2Proof.Machine
end

