-- ==== Sys2Proof/Machine/Dispatch.lean ====
section
/-! DEFINITION. One arm per instruction: the meaning it calls. -/

namespace Sys2Proof.Machine

def exec (i : Instr) (s : State) : Host.Outcome State Fault Refusal :=
  match i with
  | .escape x => Sys2Proof.Machine.execEscape x s
  | .unescape x => Sys2Proof.Machine.execUnescape x s
  | .cksum16 opd => Sys2Proof.Machine.execCksum16 opd s
  | .encode opd => Sys2Proof.Machine.execEncode opd s
  | .process buf => Sys2Proof.Machine.execProcess buf s
  | .rsmReset opd => Sys2Proof.Machine.execRsmReset opd s
  | .escPairA5 => Sys2Proof.Machine.execEscPairA5 s
  | .escPairAA => Sys2Proof.Machine.execEscPairAA s
  | .escPair55 => Sys2Proof.Machine.execEscPair55 s
  | .escLit b => Sys2Proof.Machine.execEscLit b s
  | .unescDrop => Sys2Proof.Machine.execUnescDrop s
  | .unescKeep b => Sys2Proof.Machine.execUnescKeep b s
  | .ckStep b => Sys2Proof.Machine.execCkStep b s
  | .rsmEnd mode => Sys2Proof.Machine.execRsmEnd mode s
  | .rsmAwShort b0 => Sys2Proof.Machine.execRsmAwShort b0 s
  | .rsmAwHead => Sys2Proof.Machine.execRsmAwHead s
  | .rsmAwDesync b0 b1 => Sys2Proof.Machine.execRsmAwDesync b0 b1 s
  | .rsmAcLast b0 => Sys2Proof.Machine.execRsmAcLast b0 s
  | .rsmAcTail => Sys2Proof.Machine.execRsmAcTail s
  | .rsmAcAppend b0 b1 => Sys2Proof.Machine.execRsmAcAppend b0 b1 s

end Sys2Proof.Machine
end

