-- ==== Sys2Proof/Machine/Inner.lean ====
section
/-! DEFINITION. Running an operation one inner step at a time (log entry 2), and placing a code where the next step reads
it. A command served whole never passes through these definitions. -/

namespace Sys2Proof.Machine

/-- What an operation does when its loop is over: it returns its result, or ENCODE goes on from step 2 to step 3
(R100, R105, R120, R140, R169). -/
def opReturn (s : State) : State :=
  match s.op with
  | .idle => s
  | .escape _ out => respond out { s with op := .idle }
  | .unescape _ out => respond out { s with op := .idle }
  | .cksum _ => respond [s.ckAcc] { s with op := .idle }
  | .encodeSum payload _ => { s with op := .encodeEsc payload [] }
  | .encodeEsc _ out => respond (frameAround out s.ckAcc) { s with op := .idle }
  | .process => s
  | .processDone => returnCursor { s with op := .idle }

/-- One step inside the operation in progress: the row it selects, or the end of its loop. -/
def stepInner (s : State) : Host.Outcome State Fault Refusal :=
  match nextRow s with
  | some i => exec i s
  | none => .next (opReturn s)

/-- The start of an operation run stepwise: its checks in R214's order and its first writes (R122, R161). Operations with
no loop run whole. -/
def beginStepwise (i : Instr) (s : State) : Host.Outcome State Fault Refusal :=
  match i with
  | .escape x => .next { s with op := .escape x [] }
  | .unescape x => .next { s with op := .unescape x [] }
  | .cksum16 opd =>
    if opd.length = payloadLen then .next { s with op := .cksum opd, ckAcc := 0x00 } else .refused .badLength
  | .encode opd =>
    if opd.length = payloadLen then .next { s with op := .encodeSum opd opd, ckAcc := 0x00 } else .refused .badLength
  | .process buf =>
    if overCapacity s.params buf.length then raiseCapacity s
    else .next { initReassembler buf s with op := .process }
  | .rsmReset opd => exec (.rsmReset opd) s
  | .escPairA5 => exec .escPairA5 s
  | .escPairAA => exec .escPairAA s
  | .escPair55 => exec .escPair55 s
  | .escLit b => exec (.escLit b) s
  | .unescDrop => exec .unescDrop s
  | .unescKeep b => exec (.unescKeep b) s
  | .ckStep b => exec (.ckStep b) s
  | .rsmEnd mode => exec (.rsmEnd mode) s
  | .rsmAwShort b0 => exec (.rsmAwShort b0) s
  | .rsmAwHead => exec .rsmAwHead s
  | .rsmAwDesync b0 b1 => exec (.rsmAwDesync b0 b1) s
  | .rsmAcLast b0 => exec (.rsmAcLast b0) s
  | .rsmAcTail => exec .rsmAcTail s
  | .rsmAcAppend b0 b1 => exec (.rsmAcAppend b0 b1) s

/-- The bytes a step key says remain at the scan position (R88). -/
def keyWindow (k : BitVec 19) : Bytes :=
  if k.extractLsb' 17 2 = 0b00 then [] else if k.extractLsb' 17 2 = 0b01 then [keyB0 k] else [keyB0 k, keyB1 k]

/-- A code placed where the next step reads it: a packet first on the command port; an input byte as the only one of an
operation in progress; a step key as the key of a PROCESS in progress, at the start of its buffer, or just past its HEAD
HEAD for ACCUMULATING_PAYLOAD. -/
def placeCode (c : Code) (s : State) : State :=
  match c with
  | .packet bytes => { s with op := .idle, inbox := .packet bytes :: s.inbox }
  | .escByte b => { s with op := .escape [b] [] }
  | .unescByte b => { s with op := .unescape [b] [] }
  | .ckByte b => { s with op := .cksum [b] }
  | .stepKey k =>
    match keyMode k with
    | .awaitingFrameStart => { initReassembler (keyWindow k) s with op := .process }
    | .accumulatingPayload =>
      { initReassembler ([HEAD, HEAD] ++ keyWindow k) s with
        op := .process, rsmMode := .accumulatingPayload, rsmPos := 2 }

end Sys2Proof.Machine
end

