-- ==== Sys2Proof/Machine/HostPort.lean ====
section
/-! DEFINITION. The command port and the host contract: command packets (R81, R212, R214), the receive loop (R56, R91), the
pseudo-operations (R89, R90), connection open and close (R61, R243), and the transport at its boundary (R58, R62, R63). -/

namespace Sys2Proof.Machine

/-- The refusal a packet that decodes to nothing gets (R212; log entry 7). -/
def refusalOf : DecodeError → Refusal
  | .badSelector => .badSelector
  | .malformedPacket => .malformedPacket
  | .keyNeverFormed => .stepNotSelected

/-- A command packet: decoded, then executed whole (R47, R81). -/
def servePacket (bytes : Bytes) (s : State) : Host.Outcome State Fault Refusal :=
  match decode s.params.lenBytes (.packet bytes) with
  | .ok i => exec i s
  | .error e => .refused (refusalOf e)

/-- A command packet whose operation is run one inner step at a time (log entry 2). -/
def serveStepwise (bytes : Bytes) (s : State) : Host.Outcome State Fault Refusal :=
  match decode s.params.lenBytes (.packet bytes) with
  | .ok i => beginStepwise i s
  | .error e => .refused (refusalOf e)

/-- ENCODE_CAN (R89): ENCODE of the CAN data payload; other than 8 data bytes are refused. -/
def serveEncodeCan (id : BitVec 32) (data : Bytes) (s : State) : Host.Outcome State Fault Refusal :=
  if data.length = 8 then exec (.encode (canPayload id data).bytes) s else .refused .badOperand

/-- ENCODE_CTRL (R90): ENCODE of the control payload. -/
def serveEncodeCtrl (cmd : BitVec 32) (param : Option (BitVec 32)) (s : State) : Host.Outcome State Fault Refusal :=
  exec (.encode (ctrlPayload cmd param).bytes) s

/-- RECV (R56, R91): PROCESS on the retained bytes followed by the chunk; exactly the consumed bytes are dropped. PROCESS
is run on the buffer itself and not through a packet, so a buffer of 2^LEN_WIDTH bytes or more, which no packet can carry, is
processed whole (DESIGN CHOICE: log entry 20). -/
def serveRecv (chunk : Bytes) (s : State) : Host.Outcome State Fault Refusal :=
  match exec (.process (s.hostRetained ++ chunk)) s with
  | .next t => .next { t with hostRetained := (s.hostRetained ++ chunk).drop t.rsmCursor }
  | .fault r => .fault r
  | .refused r => .refused r

/-- The host's part of opening and closing a connection: RSM_RESET, then `HOST.RETAINED <- []`, in that order
(R61, R243). -/
def resetConnection (s : State) : Host.Outcome State Fault Refusal :=
  match exec (.rsmReset []) s with
  | .next t => .next { t with hostRetained := [] }
  | .fault r => .fault r
  | .refused r => .refused r

/-- A write the transport took joins the transmit stream, whole (R58); a write it rejected, or a device that could not be
claimed, changes nothing (R63). -/
def serveWrite (frame : Bytes) (ok : Bool) (s : State) : Host.Outcome State Fault Refusal :=
  if ok then .next { s with txStream := s.txStream ++ [frame] } else .next s

/-- Opening a connection (R62, R63, R243). That one is open, or could not be opened, is not recorded: what is requested
before an opening, after a failed one or after a close is served as ever (DESIGN CHOICE: log entry 22). An opening while a
connection is open is served like a first one, and so ends a desync with no close before it (DESIGN CHOICE: log entry 23). -/
def serveOpen (ok : Bool) (s : State) : Host.Outcome State Fault Refusal :=
  if ok then resetConnection s else .next s

/-- One request served as one indivisible step (R47), whether or not a connection is open (log entry 22). -/
def serve (r : Request) (s : State) : Host.Outcome State Fault Refusal :=
  match r with
  | .packet bytes => servePacket bytes s
  | .stepwise bytes => serveStepwise bytes s
  | .encodeCan id data => serveEncodeCan id data s
  | .encodeCtrl cmd param => serveEncodeCtrl cmd param s
  | .recv chunk => serveRecv chunk s
  | .write frame ok => serveWrite frame ok s
  | .openConn ok => serveOpen ok s
  | .closeConn => resetConnection s

/-- The oldest request leaves the queue and is served; with none the core waits (R242). -/
def stepIdle (s : State) : Host.Outcome State Fault Refusal :=
  match s.inbox with
  | [] => .next s
  | r :: rest => serve r { s with inbox := rest }

end Sys2Proof.Machine
end

