-- ==== Sys2Proof/Machine/Step.lean ====
section
/-! DEFINITION. One step of the machine. -/

namespace Sys2Proof.Machine

/-- One step: no step from a faulted state (R217); the next request when the core is idle (R47, R242); otherwise one step
inside the operation in progress. -/
def step (s : State) : Host.Outcome State Fault Refusal :=
  if s.faultMark then raiseCapacity s
  else if s.op = .idle then stepIdle s
  else stepInner s

/-- `s` with an opcode-table word placed where the next step reads it (log entry 8). -/
def State.withFetchWord (s : State) (nbits w : Nat) : State :=
  match tableCode nbits w with
  | none => s
  | some c => placeCode c s

end Sys2Proof.Machine
end

