-- ==== Sys2Proof/Safety.lean ====
section
/-! DEFINITION. What counts as a good state and a safe run, in the terms the statements use: R33's invariants, the
capacity bounds, what one PROCESS yields, and the host's duty to keep the retained bytes. -/

namespace Sys2Proof.Machine

/-- R33 (a)-(d) for the buffer of the current or last PROCESS. Clause (c) is joined with `cursor + 2 ≤ pos`, which holds
in every state a run reaches and without which R33 is not kept by a single step (log entry 10). -/
abbrev ReassemblerInv (s : State) : Prop :=
  s.rsmCursor ≤ s.rsmPos ∧ s.rsmPos ≤ s.buf.length ∧
  (s.rsmMode = .awaitingFrameStart → s.rsmPos = s.rsmCursor ∧ s.rsmAccum = []) ∧
  (s.rsmMode = .accumulatingPayload →
    s.rsmCursor + 2 ≤ s.rsmPos ∧ s.rsmAccum = slice s.buf (s.rsmCursor + 2) s.rsmPos) ∧
  s.rsmAccum.length ≤ s.buf.length

/-- The frames among the port's events, oldest first. -/
def loggedFrames : List PortEvent → List Bytes
  | [] => []
  | .frame _ f :: es => f :: loggedFrames es
  | .response _ _ :: es => loggedFrames es

/-- EMITTED is the history of FRAME_OUT (R27). -/
abbrev PortInv (s : State) : Prop := loggedFrames s.portLog = s.emitted

/-- The finite parameters of R11 hold: the input buffer is within BUF_CAP and CNT_WIDTH, the accumulator within
ACCUM_CAP. -/
abbrev CapacityInv (s : State) : Prop :=
  overCapacity s.params s.buf.length = false ∧ s.rsmAccum.length ≤ s.params.accumCap.getD s.rsmAccum.length

/-- The invariant every step keeps. -/
abbrev Inv (s : State) : Prop := ReassemblerInv s ∧ PortInv s ∧ CapacityInv s

/-- The state in which one pass of the loop ends. -/
def Pass.state : Pass → State
  | .go s => s
  | .stop s => s
  | .full s => s

/-- The state PROCESS's loop ends in on `buf`, from the reset state with unbounded parameters. -/
def parsed (buf : Bytes) : State := (runLoop (buf.length + 1) (initReassembler buf State.reset)).state

/-- The frames one PROCESS of `buf` emits (R171, R176). -/
def framesOf (buf : Bytes) : List Bytes := (parsed buf).emitted

/-- The consumed count one PROCESS of `buf` returns (R169, R176). -/
def consumedOf (buf : Bytes) : Nat := (parsed buf).rsmCursor

/-- PROCESS of `buf` meets none of R173's three cases: the buffer is within BUF_CAP and CNT_WIDTH, and each frame, and what
is left accumulated at the end, is within ACCUM_CAP, so that every AccAppend finds room. -/
def hasRoom (p : Params) (buf : Bytes) : Bool :=
  !overCapacity p buf.length &&
  (match p.accumCap with
   | none => true
   | some cap => (framesOf buf).all (fun f => decide (f.length ≤ cap)) && decide ((parsed buf).rsmAccum.length ≤ cap))

/-- A desynchronised receiver: the retained bytes begin with two bytes that are not HEAD HEAD (R180). -/
def Stalled (s : State) : Prop :=
  ∃ (b0 b1 : Byte) (r : Bytes), s.hostRetained = b0 :: b1 :: r ∧ ¬ (b0 = 0xAA ∧ b1 = 0xAA)

/-- The host has kept its duty of R57: no complete frame is left at the front of HOST.RETAINED (R60). -/
def RetainedQuiet (s : State) : Prop := framesOf s.hostRetained = [] ∧ consumedOf s.hostRetained = 0

/-- The core is idle and unfaulted: it serves the next request (R242, R217). -/
abbrev Ready (s : State) : Prop := s.faultMark = false ∧ s.op = .idle

/-- The default capacities of R11, whatever the width of LEN: nothing is bounded. -/
abbrev Unbounded (p : Params) : Prop := p.accumCap = none ∧ p.bufCap = none ∧ p.cntWidth = none

/-- The instructions a command packet can name (R80), as against the rows of the decode tables (R87, R88). -/
def isCommand : Instr → Bool
  | .escape _ => true
  | .unescape _ => true
  | .cksum16 _ => true
  | .encode _ => true
  | .process _ => true
  | .rsmReset _ => true
  | .escPairA5 => false
  | .escPairAA => false
  | .escPair55 => false
  | .escLit _ => false
  | .unescDrop => false
  | .unescKeep _ => false
  | .ckStep _ => false
  | .rsmEnd _ => false
  | .rsmAwShort _ => false
  | .rsmAwHead => false
  | .rsmAwDesync _ _ => false
  | .rsmAcLast _ => false
  | .rsmAcTail => false
  | .rsmAcAppend _ _ => false

/-- Reading an escaped sequence from left to right: an 0xA5 opens a pair whose second byte is the original, any other byte
is a literal (R103 c). The core never does this: UNESCAPE does not pair (R109). -/
def readPairs : Bytes → Bytes
  | [] => []
  | [b] => [b]
  | a :: b :: rest => if a = 0xA5 then b :: readPairs rest else a :: readPairs (b :: rest)

/-- The bytes of the frames `fs` on the wire, each between HEAD HEAD and TAIL TAIL, with no gap (R175). -/
def framed : List Bytes → Bytes
  | [] => []
  | f :: fs => [0xAA, 0xAA] ++ f ++ [0x55, 0x55] ++ framed fs

/-- No pair `55 55` stands in `f ++ [55]`: what a frame must be to be found whole (R175). -/
def TailFree (f : Bytes) : Prop := ¬ [0x55, 0x55] <:+: f ++ [(0x55 : Byte)]

end Sys2Proof.Machine
end

