-- ==== Sys2Proof/Certificates/Slice0/Obligations.lean ====
section
/-! DEFINITION. The statements for the provers. Each docstring names the rules of spec/ the statement rests on. -/

open Sys2Proof Sys2Proof.Machine

/-! ### Encoding and the command port -/

/-- Decoding the encoding of a well-formed instruction gives it back, for every instruction and every operand (R80, R81,
R83, R87, R88), and for a LEN of every number of whole bytes: R81 lays out 4 of them, the others are the model's choice (log
entry 5). -/
def Obligations.DecodeEncodeRoundTrip : Prop :=
  ∀ (lenBytes : Nat) (i : Instr), WellFormed lenBytes i = true → decode lenBytes (encode lenBytes i) = .ok i

/-- A packet that decodes to an instruction is the one packet that encodes it: no byte of a packet is dropped (R81). LEN has
any number of whole bytes: R81 lays out 4 of them, the others are the model's choice (log entry 5). -/
def Obligations.PacketHasOneReading : Prop :=
  ∀ (lenBytes : Nat) (pkt : Bytes) (i : Instr),
    decode lenBytes (.packet pkt) = .ok i → encode lenBytes i = .packet pkt

/-- R88: the step key of every state decodes, to the row whose condition (R162-R168) the state meets. -/
def Obligations.StepKeySelectsTheRowOfTheCondition : Prop :=
  ∀ s : State,
    decodeStepKey (stepKey s) = .ok
      (if remaining s = 0 then .rsmEnd s.rsmMode
       else if s.rsmMode = .awaitingFrameStart then
         if remaining s = 1 then .rsmAwShort (bufRead s s.rsmPos)
         else if bufRead s s.rsmPos = 0xAA ∧ bufRead s (s.rsmPos + 1) = 0xAA then .rsmAwHead
         else .rsmAwDesync (bufRead s s.rsmPos) (bufRead s (s.rsmPos + 1))
       else
         if remaining s = 1 then .rsmAcLast (bufRead s s.rsmPos)
         else if bufRead s s.rsmPos = 0x55 ∧ bufRead s (s.rsmPos + 1) = 0x55 then .rsmAcTail
         else .rsmAcAppend (bufRead s s.rsmPos) (bufRead s (s.rsmPos + 1)))

/-- Words written out from the spec's encodings (R80, R81, R87, R88) decode to the instructions they stand for. -/
def Obligations.SpecWordsDecode : Prop :=
  decode 4 (.packet [0x01, 0x03, 0x00, 0x00, 0x00, 0x11, 0x55, 0x22]) = .ok (.escape [0x11, 0x55, 0x22]) ∧
  decode 4 (.packet [0x05, 0x01, 0x00, 0x00, 0x00, 0xAA]) = .ok (.process [0xAA]) ∧
  decode 4 (.packet [0x06, 0x00, 0x00, 0x00, 0x00]) = .ok (.rsmReset []) ∧
  decode 4 (.escByte 0x55) = .ok .escPair55 ∧ decode 4 (.escByte 0x54) = .ok (.escLit 0x54) ∧
  decode 4 (.unescByte 0xA5) = .ok .unescDrop ∧ decode 4 (.unescByte 0x55) = .ok (.unescKeep 0x55) ∧
  decode 4 (.ckByte 0xA5) = .ok (.ckStep 0xA5) ∧
  decode 4 (.stepKey 0b1001010101010101010) = .ok .rsmAwHead ∧
  decode 4 (.stepKey 0b1010101010101010101) = .ok .rsmAcTail ∧
  decode 4 (.stepKey 0b0101010101000000000) = .ok (.rsmAwShort 0xAA)

/-- A step runs the decoded instruction. When the oldest request is a packet that decodes to `i`, the step is `exec i` with
that request taken off the queue; inside an operation, the step is `exec` of the row the operation selects. -/
def Obligations.StepRunsTheDecodedInstruction : Prop :=
  (∀ (s : State) (pkt : Bytes) (rest : List Request) (i : Instr),
    Ready s → s.inbox = .packet pkt :: rest → decode s.params.lenBytes (.packet pkt) = .ok i →
    step s = exec i { s with inbox := rest }) ∧
  (∀ (s : State) (i : Instr),
    s.faultMark = false → s.op ≠ .idle → nextRow s = some i → step s = exec i s)

/-- R84: a packet with selector 0x00 or 0x07-0xFF is refused, whatever follows the selector. -/
def Obligations.ReservedSelectorIsRefused : Prop :=
  ∀ (s : State) (op : Byte) (body : Bytes) (rest : List Request),
    Ready s → s.inbox = .packet (op :: body) :: rest → (op = 0x00 ∨ 0x07 ≤ op.toNat) →
    step s = .refused .badSelector

/-- R85: CKSUM16 and ENCODE packets with LEN ≠ 16 and RSM_RESET packets with LEN ≠ 0 are refused; a PROCESS packet with
LEN > BUF_CAP faults, with no state written but the fault mark (R214, R216); that the state left has the request taken off the
queue is log entry 19's. -/
def Obligations.OperandLengthIsChecked : Prop :=
  ∀ (s : State) (opd : Bytes) (rest : List Request),
    Ready s → fitsLen s.params.lenBytes opd.length = true →
    (opd.length ≠ 16 → s.inbox = .packet (packetOf s.params.lenBytes 0x03 opd) :: rest →
      step s = .refused .badLength) ∧
    (opd.length ≠ 16 → s.inbox = .packet (packetOf s.params.lenBytes 0x04 opd) :: rest →
      step s = .refused .badLength) ∧
    (opd.length ≠ 0 → s.inbox = .packet (packetOf s.params.lenBytes 0x06 opd) :: rest →
      step s = .refused .badLength) ∧
    (∀ cap, s.params.bufCap = some cap → cap < opd.length →
      s.inbox = .packet (packetOf s.params.lenBytes 0x05 opd) :: rest →
      step s = .fault (.capacityExceeded { s with inbox := rest, faultMark := true }))

/-- A packet that is not exactly OP, LEN and LEN operand bytes is refused by a name of the model's own (log entry 7: the spec
gives such a packet no outcome of its own): the empty one, one too short to hold LEN, one with too few or too many operand
bytes. Its selector is checked before. -/
def Obligations.MisframedPacketIsRefused : Prop :=
  ∀ (s : State) (rest : List Request), Ready s →
    (s.inbox = .packet [] :: rest → step s = .refused .malformedPacket) ∧
    (∀ (op : Byte) (body : Bytes), s.inbox = .packet (op :: body) :: rest → 0x01 ≤ op.toNat → op.toNat ≤ 0x06 →
      body.length ≠ s.params.lenBytes + leNat (body.take s.params.lenBytes) → step s = .refused .malformedPacket)

/-- R210: under the default capacities every well-formed command completes. -/
def Obligations.WellFormedCommandCompletes : Prop :=
  ∀ (s : State) (pkt : Bytes) (rest : List Request) (i : Instr),
    Ready s → Unbounded s.params → s.inbox = .packet pkt :: rest →
    decode s.params.lenBytes (.packet pkt) = .ok i → WellFormed s.params.lenBytes i = true →
    ∃ t, step s = .next t

/-- R242: after reset the core is idle and takes its first command, and an idle core with no request waits, which changes
nothing (that waiting is a step to the same state is the model's choice: log entry 9). -/
def Obligations.IdleCoreWaits : Prop :=
  Ready State.reset ∧ (∀ s : State, Ready (hardReset s)) ∧
  ∀ s : State, Ready s → s.inbox = [] → step s = .next s

/-! ### Escape Codec -/

/-- ESCAPE (R100) returns ESC before each reserved byte and every byte unchanged, and changes nothing but the response
port. RLEN is the result's length where 32 bits can hold it (log entry 6: free elsewhere). -/
def Obligations.EscapeReturnsStuffedBytes : Prop :=
  ∀ (x : Bytes) (s : State), ∃ (r : Bytes) (rlen : BitVec 32),
    exec (.escape x) s = .next { s with portLog := s.portLog ++ [.response rlen r] } ∧
    r = x.flatMap (fun b => if b = 0xA5 ∨ b = 0xAA ∨ b = 0x55 then [0xA5, b] else [b]) ∧
    (r.length < 2 ^ 32 → rlen.toNat = r.length)

/-- UNESCAPE (R105) returns its operand without its 0xA5 bytes, and changes nothing but the response port. -/
def Obligations.UnescapeReturnsFilteredBytes : Prop :=
  ∀ (x : Bytes) (s : State), ∃ (r : Bytes) (rlen : BitVec 32),
    exec (.unescape x) s = .next { s with portLog := s.portLog ++ [.response rlen r] } ∧
    r = x.filter (fun b => b != 0xA5) ∧
    (r.length < 2 ^ 32 → rlen.toNat = r.length)

/-- R101, R102: inside ESCAPE, and inside ENCODE's step 3, a reserved byte contributes ESC and itself, any other byte
itself; nothing else changes. -/
def Obligations.EscapeByteCasesContribute : Prop :=
  ∀ (s : State) (rest out : Bytes),
    (s.op = .escape (0xA5 :: rest) out →
      exec .escPairA5 s = .next { s with op := .escape rest (out ++ [0xA5, 0xA5]) }) ∧
    (s.op = .escape (0xAA :: rest) out →
      exec .escPairAA s = .next { s with op := .escape rest (out ++ [0xA5, 0xAA]) }) ∧
    (s.op = .escape (0x55 :: rest) out →
      exec .escPair55 s = .next { s with op := .escape rest (out ++ [0xA5, 0x55]) }) ∧
    (∀ b : Byte, b ≠ 0xA5 → b ≠ 0xAA → b ≠ 0x55 → s.op = .escape (b :: rest) out →
      exec (.escLit b) s = .next { s with op := .escape rest (out ++ [b]) }) ∧
    (s.op = .encodeEsc (0xA5 :: rest) out →
      exec .escPairA5 s = .next { s with op := .encodeEsc rest (out ++ [0xA5, 0xA5]) }) ∧
    (s.op = .encodeEsc (0xAA :: rest) out →
      exec .escPairAA s = .next { s with op := .encodeEsc rest (out ++ [0xA5, 0xAA]) }) ∧
    (s.op = .encodeEsc (0x55 :: rest) out →
      exec .escPair55 s = .next { s with op := .encodeEsc rest (out ++ [0xA5, 0x55]) }) ∧
    (∀ b : Byte, b ≠ 0xA5 → b ≠ 0xAA → b ≠ 0x55 → s.op = .encodeEsc (b :: rest) out →
      exec (.escLit b) s = .next { s with op := .encodeEsc rest (out ++ [b]) })

/-- R106, R107: inside UNESCAPE an 0xA5 contributes nothing, any other byte itself; nothing else changes. -/
def Obligations.UnescapeByteCasesContribute : Prop :=
  ∀ (s : State) (rest out : Bytes),
    (s.op = .unescape (0xA5 :: rest) out →
      exec .unescDrop s = .next { s with op := .unescape rest out }) ∧
    (∀ b : Byte, b ≠ 0xA5 → s.op = .unescape (b :: rest) out →
      exec (.unescKeep b) s = .next { s with op := .unescape rest (out ++ [b]) })

/-- R103: the length and structure of `escape(s)`. -/
def Obligations.EscapeLengthAndStructure : Prop :=
  (∀ s : Bytes, (escape s).length = s.length + s.countP isReserved ∧
    s.length ≤ (escape s).length ∧ (escape s).length ≤ 2 * s.length) ∧
  (∀ s t : Bytes, escape (s ++ t) = escape s ++ escape t) ∧
  (∀ s : Bytes, readPairs (escape s) = s) ∧
  (∀ s t : Bytes, escape s = escape t → s = t) ∧
  (∀ s : Bytes, (escape s).count 0xA5 = 2 * s.count 0xA5 + (s.count 0xAA + s.count 0x55))

/-- R104: in `escape(s)` every 0xAA and every 0x55 is immediately preceded by 0xA5, so neither `AA AA` nor `55 55` stands
in it; this does not hold once the unescaped checksum follows. -/
def Obligations.EscapeIsDelimiterFree : Prop :=
  (∀ (s u v : Bytes) (b : Byte), escape s = u ++ b :: v → b = 0xAA ∨ b = 0x55 → u.getLast? = some 0xA5) ∧
  (∀ s : Bytes, ¬ [0xAA, 0xAA] <:+: escape s ∧ ¬ [0x55, 0x55] <:+: escape s) ∧
  (∃ p : Bytes, p.length = 16 ∧ [0x55, 0x55] <:+: escape p ++ [checksum p])

/-- R108 (a)-(e): UNESCAPE is the filter, idempotent, a homomorphism, and undoes ESCAPE exactly where 0xA5 does not occur. -/
def Obligations.UnescapeLaws : Prop :=
  (∀ s : Bytes, unescape s = s.filter (fun b => b != 0xA5) ∧
    (unescape s).length = s.length - s.count 0xA5) ∧
  (∀ s : Bytes, unescape (unescape s) = unescape s ∧ 0xA5 ∉ unescape s) ∧
  (∀ s t : Bytes, unescape (s ++ t) = unescape s ++ unescape t) ∧
  (∀ s : Bytes, unescape (escape s) = s.filter (fun b => b != 0xA5)) ∧
  (∀ s : Bytes, unescape (escape s) = s ↔ 0xA5 ∉ s)

/-! ### Checksum Unit -/

/-- CKSUM16 (R120, R122): for every 16-byte payload the sum of its bytes modulo 256 becomes CK.ACC and the result,
whatever CK.ACC held; nothing else changes. -/
def Obligations.Cksum16ReturnsTheSum : Prop :=
  ∀ (opd : Bytes) (s : State), opd.length = 16 →
    exec (.cksum16 opd) s = .next { s with
      ckAcc := BitVec.ofNat 8 ((opd.map BitVec.toNat).sum % 256),
      portLog := s.portLog ++ [.response 1 [BitVec.ofNat 8 ((opd.map BitVec.toNat).sum % 256)]] }

/-- R121: CK.STEP adds the byte into CK.ACC modulo 256, inside CKSUM16 and inside ENCODE's step 2. -/
def Obligations.CkStepAddsTheByte : Prop :=
  ∀ (s : State) (b : Byte) (payload rest : Bytes),
    (s.op = .cksum (b :: rest) →
      exec (.ckStep b) s = .next { s with
        ckAcc := BitVec.ofNat 8 ((s.ckAcc.toNat + b.toNat) % 256), op := .cksum rest }) ∧
    (s.op = .encodeSum payload (b :: rest) →
      exec (.ckStep b) s = .next { s with
        ckAcc := BitVec.ofNat 8 ((s.ckAcc.toNat + b.toNat) % 256), op := .encodeSum payload rest })

/-- R123: the checksum of 16 bytes is their sum modulo 256, a sum of at most 4080; the bytes' order does not matter, and
one byte changed by `d` changes it by `d`, so every single-byte error shows and no swap does. -/
def Obligations.ChecksumArithmetic : Prop :=
  ∀ p : Bytes, p.length = 16 →
    (checksum p).toNat = (p.map BitVec.toNat).sum % 256 ∧ (p.map BitVec.toNat).sum ≤ 4080 ∧
    (∀ q : Bytes, q.Perm p → checksum q = checksum p) ∧
    (∀ (i : Nat) (d : Byte), i < 16 →
      checksum (p.set i (p.getD i 0 + d)) = checksum p + d ∧
      (d ≠ 0 → checksum (p.set i (p.getD i 0 + d)) ≠ checksum p))

/-! ### Frame Encoder -/

/-- ENCODE (R140, R141): for every 16-byte payload, of any field values, the result is `AA AA`, the escaped payload, the raw
checksum, `55 55`; CK.ACC becomes the checksum; nothing else changes. RLEN is the frame's length, 21 to 37. -/
def Obligations.EncodeReturnsTheWireFrame : Prop :=
  ∀ (opd : Bytes) (s : State), opd.length = 16 →
    exec (.encode opd) s = .next { s with
      ckAcc := checksum opd,
      portLog := s.portLog ++ [.response (BitVec.ofNat 32 (21 + opd.countP isReserved))
        ([0xAA, 0xAA] ++ escape opd ++ [checksum opd] ++ [0x55, 0x55])] }

/-- R142: the properties of every frame ENCODE returns. `W[j:j+2] = 55 55` is written `slice W j (j + 2)`. -/
def Obligations.WireFrameProperties : Prop :=
  ∀ p : Bytes, p.length = 16 →
    slice (wireFrame p) 0 2 = [0xAA, 0xAA] ∧
    (wireFrame p).drop ((wireFrame p).length - 2) = [0x55, 0x55] ∧
    slice (wireFrame p) 2 ((wireFrame p).length - 3) = escape p ∧
    (wireFrame p).getD ((wireFrame p).length - 3) 0 = checksum p ∧
    ¬ [0x55, 0x55] <:+: escape p ∧ ¬ [0xAA, 0xAA] <:+: escape p ∧
    ((∀ j, 2 ≤ j → j < (wireFrame p).length - 2 → slice (wireFrame p) j (j + 2) ≠ [0x55, 0x55]) ↔
      checksum p ≠ 0x55)

/-- R75: a wire frame has `21 + r` bytes, r the number of reserved payload bytes: from 21 to 37. -/
def Obligations.WireFrameLength : Prop :=
  ∀ p : Bytes, p.length = 16 →
    (wireFrame p).length = 21 + p.countP isReserved ∧
    21 ≤ (wireFrame p).length ∧ (wireFrame p).length ≤ 37

/-! ### Stream Reassembler: the steps -/

/-- R162, R163, R164: the steps in AWAITING_FRAME_START, each where its condition holds. A step that stops the loop
changes nothing else. -/
def Obligations.AwaitingSteps : Prop :=
  ∀ (s : State) (b0 b1 : Byte), s.op = .process → s.rsmMode = .awaitingFrameStart →
    (s.buf[s.rsmPos]? = some 0xAA → s.buf[s.rsmPos + 1]? = some 0xAA →
      exec .rsmAwHead s = .next { s with rsmPos := s.rsmPos + 2, rsmMode := .accumulatingPayload }) ∧
    (s.rsmPos + 1 = s.buf.length → s.buf[s.rsmPos]? = some b0 →
      exec (.rsmAwShort b0) s = .next { s with op := .processDone }) ∧
    (s.buf[s.rsmPos]? = some b0 → s.buf[s.rsmPos + 1]? = some b1 → ¬ (b0 = 0xAA ∧ b1 = 0xAA) →
      exec (.rsmAwDesync b0 b1) s = .next { s with op := .processDone })

/-- R165, R166, R167: the steps in ACCUMULATING_PAYLOAD, each where its condition holds and the accumulator has room.
FLEN is the frame's length where 32 bits can hold it. -/
def Obligations.AccumulatingSteps : Prop :=
  ∀ (s : State) (b0 b1 : Byte), s.op = .process → s.rsmMode = .accumulatingPayload →
    (s.buf[s.rsmPos]? = some 0x55 → s.buf[s.rsmPos + 1]? = some 0x55 →
      ∃ flen : BitVec 32, exec .rsmAcTail s = .next { s with
        emitted := s.emitted ++ [s.rsmAccum], portLog := s.portLog ++ [.frame flen s.rsmAccum],
        rsmAccum := [], rsmPos := s.rsmPos + 2, rsmCursor := s.rsmPos + 2, rsmMode := .awaitingFrameStart } ∧
        (s.rsmAccum.length < 2 ^ 32 → flen.toNat = s.rsmAccum.length)) ∧
    (s.buf[s.rsmPos]? = some b0 → s.buf[s.rsmPos + 1]? = some b1 → ¬ (b0 = 0x55 ∧ b1 = 0x55) →
      (∀ cap, s.params.accumCap = some cap → s.rsmAccum.length < cap) →
      exec (.rsmAcAppend b0 b1) s = .next { s with rsmAccum := s.rsmAccum ++ [b0], rsmPos := s.rsmPos + 1 }) ∧
    (s.rsmPos + 1 = s.buf.length → s.buf[s.rsmPos]? = some b0 →
      (∀ cap, s.params.accumCap = some cap → s.rsmAccum.length < cap) →
      exec (.rsmAcLast b0) s = .next { s with rsmAccum := s.rsmAccum ++ [b0], rsmPos := s.rsmPos + 1 })

/-- R168: where no byte remains, in either mode, the loop stops and nothing else changes. -/
def Obligations.EndStepStops : Prop :=
  ∀ s : State, s.op = .process → s.rsmPos = s.buf.length →
    exec (.rsmEnd s.rsmMode) s = .next { s with op := .processDone }

/-- R173, R216: AccAppend on a full accumulator faults, in both steps that append; the state left is the one before the
step, with the fault mark set. -/
def Obligations.FullAccumulatorFaults : Prop :=
  ∀ (s : State) (b0 b1 : Byte) (cap : Nat),
    s.op = .process → s.rsmMode = .accumulatingPayload →
    s.params.accumCap = some cap → s.rsmAccum.length = cap →
    (s.buf[s.rsmPos]? = some b0 → s.buf[s.rsmPos + 1]? = some b1 → ¬ (b0 = 0x55 ∧ b1 = 0x55) →
      exec (.rsmAcAppend b0 b1) s = .fault (.capacityExceeded { s with faultMark := true })) ∧
    (s.rsmPos + 1 = s.buf.length → s.buf[s.rsmPos]? = some b0 →
      exec (.rsmAcLast b0) s = .fault (.capacityExceeded { s with faultMark := true }))

/-- The model's choice of log entry 3: a row executed where the operation in progress does not select it is refused. -/
def Obligations.UnselectedRowIsRefused : Prop :=
  ∀ (s : State) (i : Instr), isCommand i = false → nextRow s ≠ some i → exec i s = .refused .stepNotSelected

/-! ### Stream Reassembler: PROCESS -/

/-- PROCESS completes on every buffer that is within BUF_CAP and CNT_WIDTH and whose AccAppends all find room (R160, R169,
R171, R173, R174), a buffer longer than ACCUM_CAP whose frames fit included: it emits the frames of `buf` in order, each once,
then returns the consumed count; the state it leaves satisfies R33 (log entry 10); nothing of the sender's or the host's
changes. -/
def Obligations.ProcessCompletes : Prop :=
  ∀ (s : State) (buf : Bytes), hasRoom s.params buf = true →
    ∃ (t : State) (events : List PortEvent) (count : BitVec 32),
      exec (.process buf) s = .next t ∧
      t.emitted = s.emitted ++ framesOf buf ∧ t.rsmCursor = consumedOf buf ∧
      t.portLog = s.portLog ++ events ++ [.response 4 (le32 count)] ∧
      loggedFrames events = framesOf buf ∧ events.length = (framesOf buf).length ∧
      (consumedOf buf < 2 ^ 32 → count.toNat = consumedOf buf) ∧
      t.buf = buf ∧ ReassemblerInv t ∧
      t.params = s.params ∧ t.ckAcc = s.ckAcc ∧ t.faultMark = s.faultMark ∧ t.op = s.op ∧ t.inbox = s.inbox ∧
      t.hostRetained = s.hostRetained ∧ t.txStream = s.txStream

/-- R176: the frames PROCESS emits, the count it returns, every byte it puts on the ports and the registers it leaves depend
only on `buf`: not on the parameters, on what came before, or on anything else. A length or count that 32 bits cannot hold is
free but no exception (log entry 6). -/
def Obligations.ProcessDependsOnlyOnTheBuffer : Prop :=
  ∀ (s₁ s₂ t₁ t₂ : State) (buf : Bytes),
    exec (.process buf) s₁ = .next t₁ → exec (.process buf) s₂ = .next t₂ →
    (∃ frames : List Bytes, t₁.emitted = s₁.emitted ++ frames ∧ t₂.emitted = s₂.emitted ++ frames) ∧
    (∃ events : List PortEvent, t₁.portLog = s₁.portLog ++ events ∧ t₂.portLog = s₂.portLog ++ events) ∧
    t₁.rsmCursor = t₂.rsmCursor ∧ t₁.rsmMode = t₂.rsmMode ∧ t₁.rsmPos = t₂.rsmPos ∧ t₁.rsmAccum = t₂.rsmAccum

/-- R174: every pass of the loop stops or moves the scan position on, never past the buffer's end, and `len(buf) + 1`
passes end it. -/
def Obligations.ProcessLoopTerminates : Prop :=
  (∀ s t : State, loopPass s = .go t → s.rsmPos < t.rsmPos ∧ t.buf = s.buf ∧ t.rsmPos ≤ t.buf.length) ∧
  (∀ (buf : Bytes) (s t : State), runLoop (buf.length + 1) (initReassembler buf s) ≠ .go t)

/-- R175: the consumed prefix is exactly the emitted frames between their delimiters, and no emitted frame holds `55 55` or
ends in 0x55. -/
def Obligations.ConsumedPrefixIsTheEmittedFrames : Prop :=
  ∀ buf : Bytes, buf.take (consumedOf buf) = framed (framesOf buf) ∧ ∀ f ∈ framesOf buf, TailFree f

/-- R175, conversely: a stream of frames free of `55 55` followed by any bytes is parsed into those frames, and then as
those bytes alone would be (log entry 11: R175's "exactly" read with what the rest yields). -/
def Obligations.FramedStreamIsParsed : Prop :=
  ∀ (frames : List Bytes) (rest : Bytes), (∀ f ∈ frames, TailFree f) →
    framesOf (framed frames ++ rest) = frames ++ framesOf rest ∧
    consumedOf (framed frames ++ rest) = (framed frames).length + consumedOf rest

/-- R74, R142 (d): the frame ENCODE makes is recovered whole, checksum byte included, when the checksum is not 0x55, the
values 0xAA and 0xA5 included (R143). -/
def Obligations.EncodedFrameIsRecovered : Prop :=
  ∀ p : Bytes, checksum p ≠ 0x55 →
    framesOf (wireFrame p) = [escape p ++ [checksum p]] ∧ consumedOf (wireFrame p) = (wireFrame p).length

/-- R179: a checksum of 0x55 truncates the frame, and what is left begins with 0x55, so that nothing is ever parsed from it
whatever bytes follow. -/
def Obligations.Checksum55TruncatesTheFrame : Prop :=
  ∀ p : Bytes, checksum p = 0x55 →
    ((escape p).getLast? ≠ some 0x55 →
      framesOf (wireFrame p) = [escape p] ∧ consumedOf (wireFrame p) + 1 = (wireFrame p).length) ∧
    ((escape p).getLast? = some 0x55 →
      framesOf (wireFrame p) = [(escape p).dropLast] ∧ consumedOf (wireFrame p) + 2 = (wireFrame p).length) ∧
    (∀ more : Bytes, framesOf ((wireFrame p).drop (consumedOf (wireFrame p)) ++ more) = [] ∧
      consumedOf ((wireFrame p).drop (consumedOf (wireFrame p)) ++ more) = 0)

/-! ### Reset, capacity and the fault mark -/

/-- RSM_RESET (R200): the Reassembler at its start values, nothing emitted, an empty response; CK.ACC, EMITTED and all else
unchanged. The buffer the registers describe becomes empty (R33). -/
def Obligations.RsmResetDiscardsTheFrame : Prop :=
  ∀ s : State,
    exec (.rsmReset []) s = .next { s with
      rsmMode := .awaitingFrameStart, rsmAccum := [], rsmPos := 0, rsmCursor := 0, buf := [],
      portLog := s.portLog ++ [.response 0 []] }

/-- R240, R241: reset sets every element of R20 to its reset value and clears the fault mark, in the state the machine
starts in and at any later reset; the host's own state is not touched by it. -/
def Obligations.HardResetSetsEveryElement : Prop :=
  (∀ r : State, r = State.reset ∨ (∃ s, r = hardReset s) →
    r.rsmMode = .awaitingFrameStart ∧ r.rsmAccum = [] ∧ r.rsmPos = 0 ∧ r.rsmCursor = 0 ∧
    r.ckAcc = 0x00 ∧ r.emitted = [] ∧ r.faultMark = false) ∧
  (∀ s : State, (hardReset s).hostRetained = s.hostRetained ∧ (hardReset s).txStream = s.txStream)

/-- The invariant holds at reset (R33: "After RSM_RESET or reset, (a)-(d) hold with `buf = []`"), and after reset in any
state. The invariant is R33 strengthened as log entry 10 says, with R27 and R11's bounds; that the port record agrees with
EMITTED after a later reset is log entry 4's choice. -/
def Obligations.ResetMeetsTheInvariant : Prop :=
  Inv State.reset ∧ ∀ s : State, Inv (hardReset s)

/-- R33, strengthened as log entry 10 says, and R27, with the capacity bounds of R11: every step keeps the invariant, the
steps inside an operation too, and the state a fault leaves has it as well. -/
def Obligations.StepKeepsTheInvariant : Prop :=
  ∀ s : State, Inv s →
    (∀ t, step s = .next t → Inv t) ∧ (∀ l, step s = .fault (.capacityExceeded l) → Inv l)

/-- R27, R11, R213: over every step EMITTED and the port record only grow at their end, the parameters stay, and no step
sets or clears the fault mark but the one that faults. -/
def Obligations.StepOnlyAppendsToTheOutputs : Prop :=
  ∀ s t : State, step s = .next t →
    s.emitted <+: t.emitted ∧ s.portLog <+: t.portLog ∧ t.params = s.params ∧
    s.faultMark = false ∧ t.faultMark = false

/-- R173, R213: with the default unbounded parameters no run of any length, from any unfaulted state, ever faults. -/
def Obligations.UnboundedRunsNeverFault : Prop :=
  ∀ (n : Nat) (s : State) (l : State), Unbounded s.params → s.faultMark = false →
    core.run n s ≠ .fault (Fault.capacityExceeded l)

/-- R173, first and second case, R214: an operand longer than BUF_CAP, or of 2^CNT_WIDTH bytes or more, faults before any
state is written but the fault mark. -/
def Obligations.LongOperandFaults : Prop :=
  ∀ (s : State) (buf : Bytes),
    ((∃ cap, s.params.bufCap = some cap ∧ cap < buf.length) ∨
     (∃ w, s.params.cntWidth = some w ∧ 2 ^ w ≤ buf.length)) →
    exec (.process buf) s = .fault (.capacityExceeded { s with faultMark := true })

/-- R173, R213, R216: PROCESS faults where BUF_CAP or CNT_WIDTH is exceeded or an AccAppend finds no room, and there alone.
In the first case the state left is as before but for the mark. In the second the loop has stopped at a byte of the buffer:
the frames closed before that byte are in EMITTED and on FRAME_OUT, the accumulator holds ACCUM_CAP bytes, the registers
describe the bytes before (R33, log entry 10), and the sender's and the host's state, the requests and the parameters are
unchanged. -/
def Obligations.FaultKeepsEmittedFrames : Prop :=
  ∀ (s : State) (buf : Bytes),
    (hasRoom s.params buf = false → ∃ l, exec (.process buf) s = .fault (.capacityExceeded l)) ∧
    ∀ l, exec (.process buf) s = .fault (.capacityExceeded l) →
      hasRoom s.params buf = false ∧
      (overCapacity s.params buf.length = true → l = { s with faultMark := true }) ∧
      (overCapacity s.params buf.length = false →
        l.faultMark = true ∧ l.buf = buf ∧ l.rsmPos < buf.length ∧ s.params.accumCap = some l.rsmAccum.length ∧
        l.rsmMode = .accumulatingPayload ∧ ReassemblerInv l ∧
        l.emitted = s.emitted ++ framesOf (buf.take l.rsmPos) ∧ l.rsmCursor = consumedOf (buf.take l.rsmPos) ∧
        (∃ events, l.portLog = s.portLog ++ events ∧ loggedFrames events = framesOf (buf.take l.rsmPos) ∧
          events.length = (framesOf (buf.take l.rsmPos)).length) ∧
        l.ckAcc = s.ckAcc ∧ l.params = s.params ∧ l.op = s.op ∧ l.inbox = s.inbox ∧
        l.hostRetained = s.hostRetained ∧ l.txStream = s.txStream)

/-- R173, last sentence: ACCUM_CAP ≥ BUF_CAP rules the accumulator's fault out. -/
def Obligations.RoomyAccumulatorNeverFaults : Prop :=
  ∀ (s : State) (buf : Bytes) (a b : Nat),
    s.params.accumCap = some a → s.params.bufCap = some b → b ≤ a →
    overCapacity s.params buf.length = false → ∃ t, exec (.process buf) s = .next t

/-- R213, R217: the fault is sticky: from a state whose mark is set no run of one step or more goes anywhere. -/
def Obligations.FaultIsSticky : Prop :=
  ∀ (n : Nat) (s : State), s.faultMark = true → core.run (n + 1) s = .fault (Fault.capacityExceeded s)

/-- R47, with log entry 2: running an operation one inner step at a time ends in the state, or in the fault and the state
but for the operation still in progress, that serving its packet whole gives; and is refused where that is. -/
def Obligations.StepwiseRunReachesTheAtomicResult : Prop :=
  ∀ (s : State) (pkt : Bytes) (rest : List Request), Ready s →
    (∀ t, step { s with inbox := .packet pkt :: rest } = .next t →
      ∃ n, core.run n { s with inbox := .stepwise pkt :: rest } = .next t) ∧
    (∀ l, step { s with inbox := .packet pkt :: rest } = .fault (.capacityExceeded l) →
      ∃ n l', core.run n { s with inbox := .stepwise pkt :: rest } = .fault (Fault.capacityExceeded l') ∧
        l = { l' with op := .idle }) ∧
    (∀ r, step { s with inbox := .packet pkt :: rest } = .refused r →
      step { s with inbox := .stepwise pkt :: rest } = .refused r)

/-! ### The host contract -/

/-- R56, R91: a receive iteration processes the retained bytes followed by the chunk and drops exactly the consumed bytes. That
it does so for a buffer no packet could carry, and whether or not a connection is open, are the model's choices (log entries
20, 22), here and wherever a receive iteration is spoken of below. -/
def Obligations.ReceiveIterationDropsTheConsumed : Prop :=
  ∀ (s : State) (chunk : Bytes) (rest : List Request), Ready s → s.inbox = .recv chunk :: rest →
    hasRoom s.params (s.hostRetained ++ chunk) = true →
    ∃ t, step s = .next t ∧
      t.emitted = s.emitted ++ framesOf (s.hostRetained ++ chunk) ∧
      t.hostRetained = (s.hostRetained ++ chunk).drop (consumedOf (s.hostRetained ++ chunk)) ∧
      t.inbox = rest ∧ t.ckAcc = s.ckAcc ∧ t.txStream = s.txStream ∧ Ready t

/-- R178: from an empty retained buffer, any way of cutting a stream into chunks emits the frames one PROCESS of the whole
stream emits, and leaves the same bytes retained. -/
def Obligations.ChunkBoundariesDoNotMatter : Prop :=
  ∀ (s : State) (chunks : List Bytes), Ready s → Unbounded s.params → s.hostRetained = [] →
    s.inbox = chunks.map .recv →
    ∃ t, core.run chunks.length s = .next t ∧
      t.emitted = s.emitted ++ framesOf chunks.flatten ∧
      t.hostRetained = chunks.flatten.drop (consumedOf chunks.flatten)

/-- R180: once the retained bytes begin with two bytes that are not `AA AA`, no later receive iteration emits anything, and
the retained bytes grow by every chunk. -/
def Obligations.DesyncIsPermanent : Prop :=
  ∀ (s : State) (chunks : List Bytes) (b0 b1 : Byte) (r : Bytes), Ready s → Unbounded s.params →
    s.hostRetained = b0 :: b1 :: r → ¬ (b0 = 0xAA ∧ b1 = 0xAA) → s.inbox = chunks.map .recv →
    ∃ t, core.run chunks.length s = .next t ∧ t.emitted = s.emitted ∧
      t.hostRetained = s.hostRetained ++ chunks.flatten

/-- R60: no step leaves a complete frame at the front of HOST.RETAINED, and where none is there an iteration on an empty
chunk emits nothing and leaves HOST.RETAINED as it was. -/
def Obligations.EmptyChunkEmitsNothing : Prop :=
  (∀ s t : State, RetainedQuiet s → step s = .next t → RetainedQuiet t) ∧
  (∀ (s : State) (rest : List Request), Ready s → Unbounded s.params → RetainedQuiet s →
    s.inbox = .recv [] :: rest →
    ∃ t, step s = .next t ∧ t.emitted = s.emitted ∧ t.rsmCursor = 0 ∧ t.hostRetained = s.hostRetained)

/-- R61, R243: opening a connection that can be claimed, and closing one, discard the in-progress frame and the retained
bytes and emit nothing; one that cannot be claimed changes nothing (R63). That opening goes by RSM_RESET, with its empty response, and
that the transmit stream stays, and the host's state where the claim fails, are the model's choices (log entries 14, 22); so is that an opening discards
these while a connection is already open (log entry 23). -/
def Obligations.OpenAndCloseDiscard : Prop :=
  ∀ (s : State) (rest : List Request), Ready s →
    (s.inbox = .closeConn :: rest ∨ s.inbox = .openConn true :: rest →
      step s = .next { s with
        rsmMode := .awaitingFrameStart, rsmAccum := [], rsmPos := 0, rsmCursor := 0, buf := [],
        portLog := s.portLog ++ [.response 0 []], hostRetained := [], inbox := rest }) ∧
    (s.inbox = .openConn false :: rest → step s = .next { s with inbox := rest })

/-- R89, R77: ENCODE_CAN is ENCODE of `LE32(id) ++ data ++ [08, 00, 00, 00]` for exactly 8 data bytes; any other count is
refused. -/
def Obligations.EncodeCanExpands : Prop :=
  ∀ (s : State) (id : BitVec 32) (data : Bytes) (rest : List Request), Ready s →
    s.inbox = .encodeCan id data :: rest →
    (data.length = 8 →
      step s = exec (.encode (leBytes 4 id.toNat ++ data ++ [0x08, 0x00, 0x00, 0x00])) { s with inbox := rest } ∧
      ∃ t, step s = .next t) ∧
    (data.length ≠ 8 → step s = .refused .badOperand)

/-- R90, R78: ENCODE_CTRL is ENCODE of the command identifier, the parameter or 0, four zeros and `04 FF 01 01`. -/
def Obligations.EncodeCtrlExpands : Prop :=
  ∀ (s : State) (cmd : BitVec 32) (param : Option (BitVec 32)) (rest : List Request), Ready s →
    s.inbox = .encodeCtrl cmd param :: rest →
    step s = exec (.encode (leBytes 4 cmd.toNat ++ leBytes 4 (param.getD 0).toNat ++
      [0x00, 0x00, 0x00, 0x00] ++ [0x04, 0xFF, 0x01, 0x01])) { s with inbox := rest } ∧
    ∃ t, step s = .next t

/-- R58, R63: a write the transport takes joins the transmit stream whole; one it rejects changes nothing; the core's state
is untouched by both. One entry a write, and the stream unchanged by a rejected one, are the model's choices (log entry 14). -/
def Obligations.WritesTouchOnlyTheTransmitStream : Prop :=
  ∀ (s : State) (w : Bytes) (rest : List Request), Ready s →
    (s.inbox = .write w true :: rest →
      step s = .next { s with txStream := s.txStream ++ [w], inbox := rest }) ∧
    (s.inbox = .write w false :: rest → step s = .next { s with inbox := rest })

/-- R47: the sender's ENCODE and the receiver's PROCESS commute: in either order both complete, each puts out the very same
events (ENCODE its response, PROCESS its frames and its response) and leaves the registers it writes with the same values, and
the core ends in the same state but for the order of what stands on the ports (one record for both agents: log entry 13). -/
def Obligations.SenderAndReceiverCommute : Prop :=
  ∀ (s : State) (p buf : Bytes), p.length = 16 → hasRoom s.params buf = true →
    ∃ (s₁ s₂ t₁ t₂ : State) (sent : PortEvent) (received : List PortEvent),
      exec (.encode p) s = .next s₁ ∧ exec (.process buf) s₁ = .next s₂ ∧
      exec (.process buf) s = .next t₁ ∧ exec (.encode p) t₁ = .next t₂ ∧
      s₁.portLog = s.portLog ++ [sent] ∧ s₂.portLog = s.portLog ++ [sent] ++ received ∧
      t₁.portLog = s.portLog ++ received ∧ t₂.portLog = s.portLog ++ received ++ [sent] ∧
      s₁.ckAcc = t₂.ckAcc ∧ t₁.rsmCursor = s₂.rsmCursor ∧ t₁.emitted = s₂.emitted ∧
      s₁.rsmCursor = s.rsmCursor ∧ s₁.emitted = s.emitted ∧ loggedFrames t₂.portLog = loggedFrames s₂.portLog ∧
      t₂ = { s₂ with portLog := t₂.portLog }

/-- R82: a response and a FRAME_OUT event are four little-endian length bytes and then the bytes themselves, wherever 32
bits can hold the length (log entry 6: the length field is free elsewhere). -/
def Obligations.PortEventsCarryTheirLength : Prop :=
  ∀ (s : State) (v : Bytes), v.length < 2 ^ 32 →
    (∃ e, (respond v s).portLog = s.portLog ++ [e] ∧ e.wire = leBytes 4 v.length ++ v) ∧
    (∃ e, (emit v s).portLog = s.portLog ++ [e] ∧ e.wire = leBytes 4 v.length ++ v)

/-! ### Whole-machine rules as step lemmas -/

/-- R180, R247, R61: "Only closing the connection ends it". From every state whose retained bytes begin with two bytes that are
not `AA AA`, every step, of any request or inside any operation, leaves such a state, but for a request that opens or closes
the connection; and a receive iteration emits nothing, consumes nothing and retains the chunk. That an opening ends it with no
close before it is the model's choice (log entry 23). -/
def Obligations.StallOutlivesEveryStep : Prop :=
  ∀ s t : State, Stalled s → step s = .next t →
    (Stalled t ∨ (Ready s ∧ ∃ rest, s.inbox = .closeConn :: rest ∨ s.inbox = .openConn true :: rest)) ∧
    (∀ chunk rest, Ready s → s.inbox = .recv chunk :: rest →
      t.emitted = s.emitted ∧ t.rsmCursor = 0 ∧ t.hostRetained = s.hostRetained ++ chunk)

/-- R173, R213: from every unfaulted state with the default unbounded capacities, whatever operation is in progress, no step
faults, and every next state is such a state again. -/
def Obligations.UnboundedStepsNeverFault : Prop :=
  ∀ s : State, Unbounded s.params → s.faultMark = false →
    (∀ f : Fault, step s ≠ .fault f) ∧
    (∀ t : State, step s = .next t → Unbounded t.params ∧ t.faultMark = false)
end

