-- ==== Sys2Proof/Laws/State.lean ====
section
/-! SUPPORT. One lemma per field per named update of the state, so that no later proof unfolds an update; the plain
record updates of the model reduce by themselves. -/

namespace Sys2Proof.Machine

/-! ### respond -/

@[simp] theorem respond_params (v : Bytes) (s : State) : (respond v s).params = s.params := rfl
@[simp] theorem respond_rsmMode (v : Bytes) (s : State) : (respond v s).rsmMode = s.rsmMode := rfl
@[simp] theorem respond_rsmAccum (v : Bytes) (s : State) : (respond v s).rsmAccum = s.rsmAccum := rfl
@[simp] theorem respond_rsmPos (v : Bytes) (s : State) : (respond v s).rsmPos = s.rsmPos := rfl
@[simp] theorem respond_rsmCursor (v : Bytes) (s : State) : (respond v s).rsmCursor = s.rsmCursor := rfl
@[simp] theorem respond_ckAcc (v : Bytes) (s : State) : (respond v s).ckAcc = s.ckAcc := rfl
@[simp] theorem respond_emitted (v : Bytes) (s : State) : (respond v s).emitted = s.emitted := rfl
@[simp] theorem respond_faultMark (v : Bytes) (s : State) : (respond v s).faultMark = s.faultMark := rfl
@[simp] theorem respond_buf (v : Bytes) (s : State) : (respond v s).buf = s.buf := rfl
@[simp] theorem respond_op (v : Bytes) (s : State) : (respond v s).op = s.op := rfl
@[simp] theorem respond_inbox (v : Bytes) (s : State) : (respond v s).inbox = s.inbox := rfl
@[simp] theorem respond_portLog (v : Bytes) (s : State) : (respond v s).portLog = s.portLog ++ [.response (lengthField v) v] := rfl
@[simp] theorem respond_hostRetained (v : Bytes) (s : State) : (respond v s).hostRetained = s.hostRetained := rfl
@[simp] theorem respond_txStream (v : Bytes) (s : State) : (respond v s).txStream = s.txStream := rfl

/-! ### emit -/

@[simp] theorem emit_params (f : Bytes) (s : State) : (emit f s).params = s.params := rfl
@[simp] theorem emit_rsmMode (f : Bytes) (s : State) : (emit f s).rsmMode = s.rsmMode := rfl
@[simp] theorem emit_rsmAccum (f : Bytes) (s : State) : (emit f s).rsmAccum = s.rsmAccum := rfl
@[simp] theorem emit_rsmPos (f : Bytes) (s : State) : (emit f s).rsmPos = s.rsmPos := rfl
@[simp] theorem emit_rsmCursor (f : Bytes) (s : State) : (emit f s).rsmCursor = s.rsmCursor := rfl
@[simp] theorem emit_ckAcc (f : Bytes) (s : State) : (emit f s).ckAcc = s.ckAcc := rfl
@[simp] theorem emit_emitted (f : Bytes) (s : State) : (emit f s).emitted = s.emitted ++ [f] := rfl
@[simp] theorem emit_faultMark (f : Bytes) (s : State) : (emit f s).faultMark = s.faultMark := rfl
@[simp] theorem emit_buf (f : Bytes) (s : State) : (emit f s).buf = s.buf := rfl
@[simp] theorem emit_op (f : Bytes) (s : State) : (emit f s).op = s.op := rfl
@[simp] theorem emit_inbox (f : Bytes) (s : State) : (emit f s).inbox = s.inbox := rfl
@[simp] theorem emit_portLog (f : Bytes) (s : State) : (emit f s).portLog = s.portLog ++ [.frame (lengthField f) f] := rfl
@[simp] theorem emit_hostRetained (f : Bytes) (s : State) : (emit f s).hostRetained = s.hostRetained := rfl
@[simp] theorem emit_txStream (f : Bytes) (s : State) : (emit f s).txStream = s.txStream := rfl

/-! ### markFault -/

@[simp] theorem markFault_params (s : State) : (markFault s).params = s.params := rfl
@[simp] theorem markFault_rsmMode (s : State) : (markFault s).rsmMode = s.rsmMode := rfl
@[simp] theorem markFault_rsmAccum (s : State) : (markFault s).rsmAccum = s.rsmAccum := rfl
@[simp] theorem markFault_rsmPos (s : State) : (markFault s).rsmPos = s.rsmPos := rfl
@[simp] theorem markFault_rsmCursor (s : State) : (markFault s).rsmCursor = s.rsmCursor := rfl
@[simp] theorem markFault_ckAcc (s : State) : (markFault s).ckAcc = s.ckAcc := rfl
@[simp] theorem markFault_emitted (s : State) : (markFault s).emitted = s.emitted := rfl
@[simp] theorem markFault_faultMark (s : State) : (markFault s).faultMark = true := rfl
@[simp] theorem markFault_buf (s : State) : (markFault s).buf = s.buf := rfl
@[simp] theorem markFault_op (s : State) : (markFault s).op = s.op := rfl
@[simp] theorem markFault_inbox (s : State) : (markFault s).inbox = s.inbox := rfl
@[simp] theorem markFault_portLog (s : State) : (markFault s).portLog = s.portLog := rfl
@[simp] theorem markFault_hostRetained (s : State) : (markFault s).hostRetained = s.hostRetained := rfl
@[simp] theorem markFault_txStream (s : State) : (markFault s).txStream = s.txStream := rfl

/-! ### initReassembler -/

@[simp] theorem initReassembler_params (b : Bytes) (s : State) : (initReassembler b s).params = s.params := rfl
@[simp] theorem initReassembler_rsmMode (b : Bytes) (s : State) : (initReassembler b s).rsmMode = .awaitingFrameStart := rfl
@[simp] theorem initReassembler_rsmAccum (b : Bytes) (s : State) : (initReassembler b s).rsmAccum = [] := rfl
@[simp] theorem initReassembler_rsmPos (b : Bytes) (s : State) : (initReassembler b s).rsmPos = 0 := rfl
@[simp] theorem initReassembler_rsmCursor (b : Bytes) (s : State) : (initReassembler b s).rsmCursor = 0 := rfl
@[simp] theorem initReassembler_ckAcc (b : Bytes) (s : State) : (initReassembler b s).ckAcc = s.ckAcc := rfl
@[simp] theorem initReassembler_emitted (b : Bytes) (s : State) : (initReassembler b s).emitted = s.emitted := rfl
@[simp] theorem initReassembler_faultMark (b : Bytes) (s : State) : (initReassembler b s).faultMark = s.faultMark := rfl
@[simp] theorem initReassembler_buf (b : Bytes) (s : State) : (initReassembler b s).buf = b := rfl
@[simp] theorem initReassembler_op (b : Bytes) (s : State) : (initReassembler b s).op = s.op := rfl
@[simp] theorem initReassembler_inbox (b : Bytes) (s : State) : (initReassembler b s).inbox = s.inbox := rfl
@[simp] theorem initReassembler_portLog (b : Bytes) (s : State) : (initReassembler b s).portLog = s.portLog := rfl
@[simp] theorem initReassembler_hostRetained (b : Bytes) (s : State) : (initReassembler b s).hostRetained = s.hostRetained := rfl
@[simp] theorem initReassembler_txStream (b : Bytes) (s : State) : (initReassembler b s).txStream = s.txStream := rfl

/-! ### enterFrame -/

@[simp] theorem enterFrame_params (s : State) : (enterFrame s).params = s.params := rfl
@[simp] theorem enterFrame_rsmMode (s : State) : (enterFrame s).rsmMode = .accumulatingPayload := rfl
@[simp] theorem enterFrame_rsmAccum (s : State) : (enterFrame s).rsmAccum = s.rsmAccum := rfl
@[simp] theorem enterFrame_rsmPos (s : State) : (enterFrame s).rsmPos = s.rsmPos + 2 := rfl
@[simp] theorem enterFrame_rsmCursor (s : State) : (enterFrame s).rsmCursor = s.rsmCursor := rfl
@[simp] theorem enterFrame_ckAcc (s : State) : (enterFrame s).ckAcc = s.ckAcc := rfl
@[simp] theorem enterFrame_emitted (s : State) : (enterFrame s).emitted = s.emitted := rfl
@[simp] theorem enterFrame_faultMark (s : State) : (enterFrame s).faultMark = s.faultMark := rfl
@[simp] theorem enterFrame_buf (s : State) : (enterFrame s).buf = s.buf := rfl
@[simp] theorem enterFrame_op (s : State) : (enterFrame s).op = s.op := rfl
@[simp] theorem enterFrame_inbox (s : State) : (enterFrame s).inbox = s.inbox := rfl
@[simp] theorem enterFrame_portLog (s : State) : (enterFrame s).portLog = s.portLog := rfl
@[simp] theorem enterFrame_hostRetained (s : State) : (enterFrame s).hostRetained = s.hostRetained := rfl
@[simp] theorem enterFrame_txStream (s : State) : (enterFrame s).txStream = s.txStream := rfl

/-! ### appendByte -/

@[simp] theorem appendByte_params (b : Byte) (s : State) : (appendByte b s).params = s.params := rfl
@[simp] theorem appendByte_rsmMode (b : Byte) (s : State) : (appendByte b s).rsmMode = s.rsmMode := rfl
@[simp] theorem appendByte_rsmAccum (b : Byte) (s : State) : (appendByte b s).rsmAccum = s.rsmAccum ++ [b] := rfl
@[simp] theorem appendByte_rsmPos (b : Byte) (s : State) : (appendByte b s).rsmPos = s.rsmPos + 1 := rfl
@[simp] theorem appendByte_rsmCursor (b : Byte) (s : State) : (appendByte b s).rsmCursor = s.rsmCursor := rfl
@[simp] theorem appendByte_ckAcc (b : Byte) (s : State) : (appendByte b s).ckAcc = s.ckAcc := rfl
@[simp] theorem appendByte_emitted (b : Byte) (s : State) : (appendByte b s).emitted = s.emitted := rfl
@[simp] theorem appendByte_faultMark (b : Byte) (s : State) : (appendByte b s).faultMark = s.faultMark := rfl
@[simp] theorem appendByte_buf (b : Byte) (s : State) : (appendByte b s).buf = s.buf := rfl
@[simp] theorem appendByte_op (b : Byte) (s : State) : (appendByte b s).op = s.op := rfl
@[simp] theorem appendByte_inbox (b : Byte) (s : State) : (appendByte b s).inbox = s.inbox := rfl
@[simp] theorem appendByte_portLog (b : Byte) (s : State) : (appendByte b s).portLog = s.portLog := rfl
@[simp] theorem appendByte_hostRetained (b : Byte) (s : State) : (appendByte b s).hostRetained = s.hostRetained := rfl
@[simp] theorem appendByte_txStream (b : Byte) (s : State) : (appendByte b s).txStream = s.txStream := rfl

/-! ### closeFrame -/

@[simp] theorem closeFrame_params (s : State) : (closeFrame s).params = s.params := rfl
@[simp] theorem closeFrame_rsmMode (s : State) : (closeFrame s).rsmMode = .awaitingFrameStart := rfl
@[simp] theorem closeFrame_rsmAccum (s : State) : (closeFrame s).rsmAccum = [] := rfl
@[simp] theorem closeFrame_rsmPos (s : State) : (closeFrame s).rsmPos = s.rsmPos + 2 := rfl
@[simp] theorem closeFrame_rsmCursor (s : State) : (closeFrame s).rsmCursor = s.rsmPos + 2 := rfl
@[simp] theorem closeFrame_ckAcc (s : State) : (closeFrame s).ckAcc = s.ckAcc := rfl
@[simp] theorem closeFrame_emitted (s : State) : (closeFrame s).emitted = s.emitted ++ [s.rsmAccum] := rfl
@[simp] theorem closeFrame_faultMark (s : State) : (closeFrame s).faultMark = s.faultMark := rfl
@[simp] theorem closeFrame_buf (s : State) : (closeFrame s).buf = s.buf := rfl
@[simp] theorem closeFrame_op (s : State) : (closeFrame s).op = s.op := rfl
@[simp] theorem closeFrame_inbox (s : State) : (closeFrame s).inbox = s.inbox := rfl
@[simp] theorem closeFrame_portLog (s : State) : (closeFrame s).portLog = s.portLog ++ [.frame (lengthField s.rsmAccum) s.rsmAccum] := rfl
@[simp] theorem closeFrame_hostRetained (s : State) : (closeFrame s).hostRetained = s.hostRetained := rfl
@[simp] theorem closeFrame_txStream (s : State) : (closeFrame s).txStream = s.txStream := rfl

/-! ### returnCursor -/

@[simp] theorem returnCursor_params (s : State) : (returnCursor s).params = s.params := rfl
@[simp] theorem returnCursor_rsmMode (s : State) : (returnCursor s).rsmMode = s.rsmMode := rfl
@[simp] theorem returnCursor_rsmAccum (s : State) : (returnCursor s).rsmAccum = s.rsmAccum := rfl
@[simp] theorem returnCursor_rsmPos (s : State) : (returnCursor s).rsmPos = s.rsmPos := rfl
@[simp] theorem returnCursor_rsmCursor (s : State) : (returnCursor s).rsmCursor = s.rsmCursor := rfl
@[simp] theorem returnCursor_ckAcc (s : State) : (returnCursor s).ckAcc = s.ckAcc := rfl
@[simp] theorem returnCursor_emitted (s : State) : (returnCursor s).emitted = s.emitted := rfl
@[simp] theorem returnCursor_faultMark (s : State) : (returnCursor s).faultMark = s.faultMark := rfl
@[simp] theorem returnCursor_buf (s : State) : (returnCursor s).buf = s.buf := rfl
@[simp] theorem returnCursor_op (s : State) : (returnCursor s).op = s.op := rfl
@[simp] theorem returnCursor_inbox (s : State) : (returnCursor s).inbox = s.inbox := rfl
@[simp] theorem returnCursor_portLog (s : State) : (returnCursor s).portLog = s.portLog ++ [.response 4 (le32 (countField s.buf s.rsmCursor))] := rfl
@[simp] theorem returnCursor_hostRetained (s : State) : (returnCursor s).hostRetained = s.hostRetained := rfl
@[simp] theorem returnCursor_txStream (s : State) : (returnCursor s).txStream = s.txStream := rfl

/-! ### contribute -/

@[simp] theorem contribute_params (add : Bytes) (s : State) : (contribute add s).params = s.params := rfl
@[simp] theorem contribute_rsmMode (add : Bytes) (s : State) : (contribute add s).rsmMode = s.rsmMode := rfl
@[simp] theorem contribute_rsmAccum (add : Bytes) (s : State) : (contribute add s).rsmAccum = s.rsmAccum := rfl
@[simp] theorem contribute_rsmPos (add : Bytes) (s : State) : (contribute add s).rsmPos = s.rsmPos := rfl
@[simp] theorem contribute_rsmCursor (add : Bytes) (s : State) : (contribute add s).rsmCursor = s.rsmCursor := rfl
@[simp] theorem contribute_ckAcc (add : Bytes) (s : State) : (contribute add s).ckAcc = s.ckAcc := rfl
@[simp] theorem contribute_emitted (add : Bytes) (s : State) : (contribute add s).emitted = s.emitted := rfl
@[simp] theorem contribute_faultMark (add : Bytes) (s : State) : (contribute add s).faultMark = s.faultMark := rfl
@[simp] theorem contribute_buf (add : Bytes) (s : State) : (contribute add s).buf = s.buf := rfl
@[simp] theorem contribute_op (add : Bytes) (s : State) : (contribute add s).op = s.op.consume add := rfl
@[simp] theorem contribute_inbox (add : Bytes) (s : State) : (contribute add s).inbox = s.inbox := rfl
@[simp] theorem contribute_portLog (add : Bytes) (s : State) : (contribute add s).portLog = s.portLog := rfl
@[simp] theorem contribute_hostRetained (add : Bytes) (s : State) : (contribute add s).hostRetained = s.hostRetained := rfl
@[simp] theorem contribute_txStream (add : Bytes) (s : State) : (contribute add s).txStream = s.txStream := rfl

/-! ### stopLoop -/

@[simp] theorem stopLoop_params (s : State) : (stopLoop s).params = s.params := rfl
@[simp] theorem stopLoop_rsmMode (s : State) : (stopLoop s).rsmMode = s.rsmMode := rfl
@[simp] theorem stopLoop_rsmAccum (s : State) : (stopLoop s).rsmAccum = s.rsmAccum := rfl
@[simp] theorem stopLoop_rsmPos (s : State) : (stopLoop s).rsmPos = s.rsmPos := rfl
@[simp] theorem stopLoop_rsmCursor (s : State) : (stopLoop s).rsmCursor = s.rsmCursor := rfl
@[simp] theorem stopLoop_ckAcc (s : State) : (stopLoop s).ckAcc = s.ckAcc := rfl
@[simp] theorem stopLoop_emitted (s : State) : (stopLoop s).emitted = s.emitted := rfl
@[simp] theorem stopLoop_faultMark (s : State) : (stopLoop s).faultMark = s.faultMark := rfl
@[simp] theorem stopLoop_buf (s : State) : (stopLoop s).buf = s.buf := rfl
@[simp] theorem stopLoop_op (s : State) : (stopLoop s).op = .processDone := rfl
@[simp] theorem stopLoop_inbox (s : State) : (stopLoop s).inbox = s.inbox := rfl
@[simp] theorem stopLoop_portLog (s : State) : (stopLoop s).portLog = s.portLog := rfl
@[simp] theorem stopLoop_hostRetained (s : State) : (stopLoop s).hostRetained = s.hostRetained := rfl
@[simp] theorem stopLoop_txStream (s : State) : (stopLoop s).txStream = s.txStream := rfl

/-! ### sumInto -/

@[simp] theorem sumInto_params (p : Bytes) (s : State) : (sumInto p s).params = s.params := rfl
@[simp] theorem sumInto_rsmMode (p : Bytes) (s : State) : (sumInto p s).rsmMode = s.rsmMode := rfl
@[simp] theorem sumInto_rsmAccum (p : Bytes) (s : State) : (sumInto p s).rsmAccum = s.rsmAccum := rfl
@[simp] theorem sumInto_rsmPos (p : Bytes) (s : State) : (sumInto p s).rsmPos = s.rsmPos := rfl
@[simp] theorem sumInto_rsmCursor (p : Bytes) (s : State) : (sumInto p s).rsmCursor = s.rsmCursor := rfl
@[simp] theorem sumInto_ckAcc (p : Bytes) (s : State) : (sumInto p s).ckAcc = checksum p := rfl
@[simp] theorem sumInto_emitted (p : Bytes) (s : State) : (sumInto p s).emitted = s.emitted := rfl
@[simp] theorem sumInto_faultMark (p : Bytes) (s : State) : (sumInto p s).faultMark = s.faultMark := rfl
@[simp] theorem sumInto_buf (p : Bytes) (s : State) : (sumInto p s).buf = s.buf := rfl
@[simp] theorem sumInto_op (p : Bytes) (s : State) : (sumInto p s).op = s.op := rfl
@[simp] theorem sumInto_inbox (p : Bytes) (s : State) : (sumInto p s).inbox = s.inbox := rfl
@[simp] theorem sumInto_portLog (p : Bytes) (s : State) : (sumInto p s).portLog = s.portLog := rfl
@[simp] theorem sumInto_hostRetained (p : Bytes) (s : State) : (sumInto p s).hostRetained = s.hostRetained := rfl
@[simp] theorem sumInto_txStream (p : Bytes) (s : State) : (sumInto p s).txStream = s.txStream := rfl

/-! ### hardReset -/

@[simp] theorem hardReset_params (s : State) : (hardReset s).params = s.params := rfl
@[simp] theorem hardReset_rsmMode (s : State) : (hardReset s).rsmMode = .awaitingFrameStart := rfl
@[simp] theorem hardReset_rsmAccum (s : State) : (hardReset s).rsmAccum = [] := rfl
@[simp] theorem hardReset_rsmPos (s : State) : (hardReset s).rsmPos = 0 := rfl
@[simp] theorem hardReset_rsmCursor (s : State) : (hardReset s).rsmCursor = 0 := rfl
@[simp] theorem hardReset_ckAcc (s : State) : (hardReset s).ckAcc = 0 := rfl
@[simp] theorem hardReset_emitted (s : State) : (hardReset s).emitted = [] := rfl
@[simp] theorem hardReset_faultMark (s : State) : (hardReset s).faultMark = false := rfl
@[simp] theorem hardReset_buf (s : State) : (hardReset s).buf = [] := rfl
@[simp] theorem hardReset_op (s : State) : (hardReset s).op = .idle := rfl
@[simp] theorem hardReset_inbox (s : State) : (hardReset s).inbox = s.inbox := rfl
@[simp] theorem hardReset_portLog (s : State) : (hardReset s).portLog = [] := rfl
@[simp] theorem hardReset_hostRetained (s : State) : (hardReset s).hostRetained = s.hostRetained := rfl
@[simp] theorem hardReset_txStream (s : State) : (hardReset s).txStream = s.txStream := rfl

end Sys2Proof.Machine
end

