-- ==== Sys2Proof/Laws/Encoding.lean ====
section
/-! SUPPORT. The laws of the encodings: little-endian numbers, the fields of the step key, and which row a key with given
fields selects. -/

namespace Sys2Proof

@[simp] theorem leBytes_length (k n : Nat) : (leBytes k n).length = k := by
  induction k generalizing n with
  | zero => rfl
  | succ k ih => simp [leBytes, ih]

theorem leNat_leBytes (k n : Nat) (h : n < 256 ^ k) : leNat (leBytes k n) = n := by
  induction k generalizing n with
  | zero => simp at h; subst h; rfl
  | succ k ih =>
    have : n / 256 < 256 ^ k := by rw [Nat.div_lt_iff_lt_mul (by decide)]; rw [pow_succ] at h; omega
    simp [leBytes, leNat, ih _ this]
    omega

theorem leBytes_leNat (bs : Bytes) : leBytes bs.length (leNat bs) = bs := by
  induction bs with
  | nil => rfl
  | cons b bs ih =>
    have hb := b.isLt
    have h1 : (b.toNat + 256 * leNat bs) / 256 = leNat bs := by omega
    simp only [List.length_cons, leNat, leBytes, h1, ih, List.cons.injEq, and_true]
    apply BitVec.eq_of_toNat_eq
    simp
    omega

theorem leNat_lt (bs : Bytes) : leNat bs < 256 ^ bs.length := by
  induction bs with
  | nil => simp [leNat]
  | cons b bs ih =>
    have hb := b.isLt
    simp only [leNat, List.length_cons, pow_succ]
    omega

/-- LE32 is the four-byte little-endian form (R13). -/
theorem le32_eq_leBytes (v : BitVec 32) : le32 v = leBytes 4 v.toNat := by
  simp only [le32, leBytes, List.cons.injEq, and_true]
  refine ⟨?_, ?_, ?_, ?_⟩ <;> apply BitVec.eq_of_toNat_eq <;>
    simp [BitVec.extractLsb'_toNat, Nat.shiftRight_eq_div_pow] <;> omega

/-! ### The step key -/

@[simp] theorem keyB1_packKey (a : BitVec 2) (m : Mode) (b0 b1 : Byte) : keyB1 (packKey a m b0 b1) = b1 := by
  ext i hi
  simp only [keyB1, packKey, BitVec.getElem_extractLsb']
  simp only [BitVec.getLsbD_append]
  simp [hi]

@[simp] theorem keyB0_packKey (a : BitVec 2) (m : Mode) (b0 b1 : Byte) : keyB0 (packKey a m b0 b1) = b0 := by
  ext i hi
  simp only [keyB0, packKey, BitVec.getElem_extractLsb']
  simp only [BitVec.getLsbD_append]
  simp [hi]

@[simp] theorem keyMode_packKey (a : BitVec 2) (m : Mode) (b0 b1 : Byte) : keyMode (packKey a m b0 b1) = m := by
  have h : (packKey a m b0 b1).extractLsb' 16 1 = modeBit m := by
    ext i hi
    simp only [packKey, BitVec.getElem_extractLsb']
    simp only [BitVec.getLsbD_append]
    have : i = 0 := by omega
    subst this
    simp
  rw [keyMode, h]
  cases m <;> decide

theorem keyAvail_packKey (a : BitVec 2) (m : Mode) (b0 b1 : Byte) :
    (packKey a m b0 b1).extractLsb' 17 2 = a := by
  ext i hi
  simp only [packKey, BitVec.getElem_extractLsb']
  simp only [BitVec.getLsbD_append]
  have h : i = 0 ∨ i = 1 := by omega
  rcases h with rfl | rfl <;> simp [BitVec.getLsbD_eq_getElem]

/-- A packed key determines its fields. -/
theorem packKey_inj {a a' : BitVec 2} {m m' : Mode} {b0 b0' b1 b1' : Byte}
    (h : packKey a m b0 b1 = packKey a' m' b0' b1') : a = a' ∧ m = m' ∧ b0 = b0' ∧ b1 = b1' := by
  refine ⟨?_, ?_, ?_, ?_⟩
  · rw [← keyAvail_packKey a m b0 b1, h, keyAvail_packKey]
  · rw [← keyMode_packKey a m b0 b1, h, keyMode_packKey]
  · rw [← keyB0_packKey a m b0 b1, h, keyB0_packKey]
  · rw [← keyB1_packKey a m b0 b1, h, keyB1_packKey]

/-- The bits of a key that a mask of high bits keeps are those of its AVAIL and MODE. -/
theorem packKey_and_high (a : BitVec 2) (m : Mode) (b0 b1 : Byte) (mask : BitVec 19)
    (h : mask &&& 0x0FFFF = 0) : packKey a m b0 b1 &&& mask = packKey a m 0 0 &&& mask := by
  apply BitVec.eq_of_getLsbD_eq
  intro i hi
  have hm : i < 16 → mask.getLsbD i = false := by
    intro hlt
    have := congrArg (fun v => BitVec.getLsbD v i) h
    have h1 : (0x0FFFF : BitVec 19).getLsbD i = true := by
      interval_cases i <;> decide
    rw [BitVec.getLsbD_and, h1, Bool.and_true] at this
    simpa using this
  simp only [BitVec.getLsbD_and]
  by_cases hlt : i < 16
  · simp [hm hlt]
  · congr 1
    simp only [packKey, BitVec.getLsbD_append]
    have h1 : ¬ i < 8 := by omega
    have h2 : ¬ i - 8 < 8 := by omega
    simp [h1, h2]

/-- The row a packed key selects, from its fields: R88's table read back. -/
theorem decodeStepKey_packKey (a : BitVec 2) (m : Mode) (b0 b1 : Byte) :
    decodeStepKey (packKey a m b0 b1) =
      if a = 0b00 then .ok (.rsmEnd m)
      else if a = 0b01 then
        .ok (match m with | .awaitingFrameStart => .rsmAwShort b0 | .accumulatingPayload => .rsmAcLast b0)
      else if a = 0b10 then
        .ok (match m with
          | .awaitingFrameStart => if b0 = 0xAA ∧ b1 = 0xAA then .rsmAwHead else .rsmAwDesync b0 b1
          | .accumulatingPayload => if b0 = 0x55 ∧ b1 = 0x55 then .rsmAcTail else .rsmAcAppend b0 b1)
      else .error .keyNeverFormed := by
  have e7 : ∀ k : BitVec 19, k &&& 0x7FFFF = k := fun k => by
    rw [show (0x7FFFF : BitVec 19) = BitVec.allOnes 19 by decide, BitVec.and_allOnes]
  have eh : (0x4AAAA : BitVec 19) = packKey 0b10 .awaitingFrameStart 0xAA 0xAA := by decide
  have et : (0x55555 : BitVec 19) = packKey 0b10 .accumulatingPayload 0x55 0x55 := by decide
  have i1 : (packKey a m b0 b1 = packKey 0b10 .awaitingFrameStart 0xAA 0xAA) ↔
      (a = 0b10 ∧ m = .awaitingFrameStart ∧ b0 = 0xAA ∧ b1 = 0xAA) :=
    ⟨packKey_inj, by rintro ⟨rfl, rfl, rfl, rfl⟩; rfl⟩
  have i2 : (packKey a m b0 b1 = packKey 0b10 .accumulatingPayload 0x55 0x55) ↔
      (a = 0b10 ∧ m = .accumulatingPayload ∧ b0 = 0x55 ∧ b1 = 0x55) :=
    ⟨packKey_inj, by rintro ⟨rfl, rfl, rfl, rfl⟩; rfl⟩
  simp only [decodeStepKey, e7, eh, et, i1, i2, keyMode_packKey, keyB0_packKey, keyB1_packKey]
  rw [packKey_and_high a m b0 b1 0x60000 (by decide), packKey_and_high a m b0 b1 0x70000 (by decide)]
  have ha : a = 0 ∨ a = 1 ∨ a = 2 ∨ a = 3 := (by decide : ∀ v : BitVec 2, v = 0 ∨ v = 1 ∨ v = 2 ∨ v = 3) a
  rcases ha with rfl | rfl | rfl | rfl <;> cases m <;> simp +decide
  all_goals split <;> simp_all

end Sys2Proof
end

