-- ==== Sys2Proof/Laws/Codec.lean ====
section
/-! SUPPORT. The small lemmas of the codec's functions: ESCAPE and UNESCAPE byte by byte, the checksum as a sum, the
payload's fields and its bytes. -/

namespace Sys2Proof.Machine

@[simp] theorem escape_nil : escape [] = [] := rfl
@[simp] theorem unescape_nil : unescape [] = [] := rfl

theorem isReserved_iff (b : Byte) : isReserved b = true ↔ b = 0xA5 ∨ b = 0xAA ∨ b = 0x55 := by
  simp [isReserved, ESC, HEAD, TAIL, or_assoc]

theorem escape_cons_reserved {b : Byte} (h : isReserved b = true) (s : Bytes) :
    escape (b :: s) = 0xA5 :: b :: escape s := by
  rw [escape, if_pos ((isReserved_iff b).1 h)]

theorem escape_cons_plain {b : Byte} (h : isReserved b = false) (s : Bytes) : escape (b :: s) = b :: escape s := by
  rw [escape, if_neg]
  rw [← isReserved_iff, h]
  decide

theorem unescape_cons_esc (s : Bytes) : unescape (0xA5 :: s) = unescape s := by simp [unescape]

theorem unescape_cons_other {b : Byte} (h : b ≠ 0xA5) (s : Bytes) : unescape (b :: s) = b :: unescape s := by
  rw [unescape, if_neg h]

/-- The accumulator after any bytes, from any start: the sum modulo 256. -/
theorem foldl_ckAdd_toNat (p : Bytes) (a : Byte) :
    (p.foldl ckAdd a).toNat = (a.toNat + (p.map BitVec.toNat).sum) % 256 := by
  induction p generalizing a with
  | nil => have := a.isLt; simp; omega
  | cons b p ih => rw [List.foldl_cons, ih]; simp [ckAdd]; omega

/-- The accumulator's start value only adds: what a sum begun elsewhere leaves. -/
theorem foldl_ckAdd_add (p : Bytes) (a b : Byte) : p.foldl ckAdd (a + b) = p.foldl ckAdd a + b := by
  apply BitVec.eq_of_toNat_eq
  rw [BitVec.toNat_add, foldl_ckAdd_toNat, foldl_ckAdd_toNat, BitVec.toNat_add]
  omega

/-- A 16-byte operand read as fields and written back is itself (R72, R83). -/
theorem payloadOfOperand_bytes {opd : Bytes} (h : opd.length = 16) : (payloadOfOperand opd).bytes = opd := by
  match opd, h with
  | [_, _, _, _, _, _, _, _, _, _, _, _, _, _, _, _], _ => rfl

end Sys2Proof.Machine
end

