-- ==== Sys2Proof/Laws/Ops.lean ====
section
/-! SUPPORT. What each shared operation can do, said once: the ports, the fault, a selected row, the meanings' outcomes. -/

namespace Sys2Proof.Machine

theorem lengthField_eq {v : Bytes} (h : v.length < 2 ^ 32) : lengthField v = BitVec.ofNat 32 v.length := if_pos h

theorem lengthField_toNat {v : Bytes} (h : v.length < 2 ^ 32) : (lengthField v).toNat = v.length := by
  rw [lengthField_eq h, BitVec.toNat_ofNat, Nat.mod_eq_of_lt h]

theorem countField_eq (buf : Bytes) {n : Nat} (h : n < 2 ^ 32) : countField buf n = BitVec.ofNat 32 n := if_pos h

theorem countField_toNat (buf : Bytes) {n : Nat} (h : n < 2 ^ 32) : (countField buf n).toNat = n := by
  rw [countField_eq buf h, BitVec.toNat_ofNat, Nat.mod_eq_of_lt h]

@[simp] theorem le32_length (v : BitVec 32) : (le32 v).length = 4 := rfl

theorem loggedFrames_append (a b : List PortEvent) : loggedFrames (a ++ b) = loggedFrames a ++ loggedFrames b := by
  induction a with
  | nil => rfl
  | cons e a ih => cases e <;> simp [loggedFrames, ih]

/-- A fault is raised with the state it leaves: the one given, with the mark set. -/
theorem raiseCapacity_eq (s : State) : raiseCapacity s = .fault (.capacityExceeded (markFault s)) := rfl

/-- Everything `whenSelected` can do. -/
theorem whenSelected_cases (row : Instr) (s : State) (o : Host.Outcome State Fault Refusal) :
    (nextRow s = some row ∧ whenSelected row s o = o) ∨
    (nextRow s ≠ some row ∧ whenSelected row s o = .refused .stepNotSelected) := by
  by_cases h : nextRow s = some row
  · exact .inl ⟨h, if_pos h⟩
  · exact .inr ⟨h, if_neg h⟩

theorem whenSelected_next {row : Instr} {s t : State} {o : Host.Outcome State Fault Refusal}
    (h : whenSelected row s o = .next t) : nextRow s = some row ∧ o = .next t := by
  rcases whenSelected_cases row s o with ⟨hn, he⟩ | ⟨-, he⟩ <;> rw [he] at h
  · exact ⟨hn, h⟩
  · cases h

/-- Everything an append as a step of its own can do. -/
theorem stepAppend_cases (b : Byte) (s : State) :
    (accumFull s = false ∧ stepAppend b s = .next (appendByte b s)) ∨
    (accumFull s = true ∧ stepAppend b s = .fault (.capacityExceeded (markFault s))) := by
  unfold stepAppend
  cases h : accumFull s
  · exact .inl ⟨rfl, rfl⟩
  · exact .inr ⟨rfl, rfl⟩

/-- Room in the accumulator, as a bound. -/
theorem accumFull_eq_false {s : State} :
    accumFull s = false ↔ ∀ cap, s.params.accumCap = some cap → s.rsmAccum.length < cap := by
  unfold accumFull
  cases h : s.params.accumCap <;> simp

/-- A PROCESS in progress always selects a row: every key that is formed is in R88's table. -/
theorem nextRow_process {s : State} (h : s.op = .process) :
    ∃ i, decodeStepKey (stepKey s) = .ok i ∧ nextRow s = some i := by
  unfold nextRow
  rw [h]
  simp only [stepKey, decodeStepKey_packKey]
  have : avail s = 0b00 ∨ avail s = 0b01 ∨ avail s = 0b10 := by
    unfold avail
    split
    · simp
    · split <;> simp
  rcases this with h | h | h <;> rw [h]
  · exact ⟨_, rfl, rfl⟩
  · exact ⟨_, rfl, rfl⟩
  · exact ⟨_, rfl, rfl⟩

/-- Everything a meaning can do when it completes: a command returns a result over the Reassembler it leaves; a row acts
where it is selected. Provers cite this instead of unfolding `exec`. -/
theorem exec_next_cases {i : Instr} {s t : State} (h : exec i s = .next t) :
    (∃ v k, t = respond v { s with ckAcc := k }) ∨
    (∃ v, t = respond v (initReassembler [] s)) ∨
    (∃ buf, i = .process buf ∧ overCapacity s.params buf.length = false ∧
      ∃ u, t = returnCursor u ∧
        (runLoop (buf.length + 1) (initReassembler buf s) = .stop u ∨
         runLoop (buf.length + 1) (initReassembler buf s) = .go u)) ∨
    (nextRow s = some i ∧
      ((∃ add, t = contribute add s) ∨ (∃ k, t = { contribute [] s with ckAcc := k }) ∨
       t = stopLoop s ∨ (i = .rsmAwHead ∧ t = enterFrame s) ∨ (i = .rsmAcTail ∧ t = closeFrame s) ∨
       (∃ b, (i = .rsmAcLast b ∨ ∃ b1, i = .rsmAcAppend b b1) ∧ accumFull s = false ∧ t = appendByte b s))) := by
  cases i with
  | escape x => cases h; exact .inl ⟨escape x, s.ckAcc, rfl⟩
  | unescape x => cases h; exact .inl ⟨unescape x, s.ckAcc, rfl⟩
  | cksum16 opd =>
    simp only [exec, execCksum16] at h
    split at h <;> cases h
    exact .inl ⟨_, _, rfl⟩
  | encode opd =>
    simp only [exec, execEncode] at h
    split at h <;> cases h
    exact .inl ⟨_, _, rfl⟩
  | process buf =>
    simp only [exec, execProcess] at h
    split at h
    · cases h
    · rename_i hc
      refine .inr (.inr (.inl ⟨buf, rfl, by simpa using hc, ?_⟩))
      cases hr : runLoop (buf.length + 1) (initReassembler buf s) with
      | go u => rw [hr] at h; cases h; exact ⟨u, rfl, .inr rfl⟩
      | stop u => rw [hr] at h; cases h; exact ⟨u, rfl, .inl rfl⟩
      | full u => rw [hr] at h; cases h
  | rsmReset opd =>
    simp only [exec, execRsmReset] at h
    split at h <;> cases h
    exact .inr (.inl ⟨_, rfl⟩)
  | escPairA5 => obtain ⟨hn, ho⟩ := whenSelected_next h; cases ho; exact .inr (.inr (.inr ⟨hn, .inl ⟨_, rfl⟩⟩))
  | escPairAA => obtain ⟨hn, ho⟩ := whenSelected_next h; cases ho; exact .inr (.inr (.inr ⟨hn, .inl ⟨_, rfl⟩⟩))
  | escPair55 => obtain ⟨hn, ho⟩ := whenSelected_next h; cases ho; exact .inr (.inr (.inr ⟨hn, .inl ⟨_, rfl⟩⟩))
  | escLit b => obtain ⟨hn, ho⟩ := whenSelected_next h; cases ho; exact .inr (.inr (.inr ⟨hn, .inl ⟨_, rfl⟩⟩))
  | unescDrop => obtain ⟨hn, ho⟩ := whenSelected_next h; cases ho; exact .inr (.inr (.inr ⟨hn, .inl ⟨_, rfl⟩⟩))
  | unescKeep b => obtain ⟨hn, ho⟩ := whenSelected_next h; cases ho; exact .inr (.inr (.inr ⟨hn, .inl ⟨_, rfl⟩⟩))
  | ckStep b =>
    obtain ⟨hn, ho⟩ := whenSelected_next h; cases ho; exact .inr (.inr (.inr ⟨hn, .inr (.inl ⟨_, rfl⟩)⟩))
  | rsmEnd m =>
    obtain ⟨hn, ho⟩ := whenSelected_next h; cases ho; exact .inr (.inr (.inr ⟨hn, .inr (.inr (.inl rfl))⟩))
  | rsmAwShort b =>
    obtain ⟨hn, ho⟩ := whenSelected_next h; cases ho; exact .inr (.inr (.inr ⟨hn, .inr (.inr (.inl rfl))⟩))
  | rsmAwHead =>
    obtain ⟨hn, ho⟩ := whenSelected_next h; cases ho
    exact .inr (.inr (.inr ⟨hn, .inr (.inr (.inr (.inl ⟨rfl, rfl⟩)))⟩))
  | rsmAwDesync b0 b1 =>
    obtain ⟨hn, ho⟩ := whenSelected_next h; cases ho; exact .inr (.inr (.inr ⟨hn, .inr (.inr (.inl rfl))⟩))
  | rsmAcLast b =>
    obtain ⟨hn, ho⟩ := whenSelected_next h
    rcases stepAppend_cases b s with ⟨hf, he⟩ | ⟨-, he⟩ <;> rw [he] at ho <;> cases ho
    exact .inr (.inr (.inr ⟨hn, .inr (.inr (.inr (.inr (.inr ⟨b, .inl rfl, hf, rfl⟩))))⟩))
  | rsmAcTail =>
    obtain ⟨hn, ho⟩ := whenSelected_next h; cases ho
    exact .inr (.inr (.inr ⟨hn, .inr (.inr (.inr (.inr (.inl ⟨rfl, rfl⟩))))⟩))
  | rsmAcAppend b b1 =>
    obtain ⟨hn, ho⟩ := whenSelected_next h
    rcases stepAppend_cases b s with ⟨hf, he⟩ | ⟨-, he⟩ <;> rw [he] at ho <;> cases ho
    exact .inr (.inr (.inr ⟨hn, .inr (.inr (.inr (.inr (.inr ⟨b, .inr ⟨b1, rfl⟩, hf, rfl⟩))))⟩))

end Sys2Proof.Machine
end

