-- ==== Sys2Proof/Laws/Reassembler.lean ====
section
/-! SUPPORT. What one pass of PROCESS's loop can do, said once; how to carry a property through the loop; and the frames and
the count of a whole PROCESS as a function of the buffer alone, by recursion on it. -/

namespace Sys2Proof.Machine

/-- Everything a pass that goes on can have done (R162, R165, R166, R167). -/
theorem loopPass_go {s t : State} (h : loopPass s = .go t) :
    (s.rsmMode = .awaitingFrameStart ∧ 2 ≤ remaining s ∧
      bufRead s s.rsmPos = 0xAA ∧ bufRead s (s.rsmPos + 1) = 0xAA ∧ t = enterFrame s) ∨
    (s.rsmMode = .accumulatingPayload ∧ 2 ≤ remaining s ∧
      bufRead s s.rsmPos = 0x55 ∧ bufRead s (s.rsmPos + 1) = 0x55 ∧ t = closeFrame s) ∨
    (s.rsmMode = .accumulatingPayload ∧ 1 ≤ remaining s ∧
      ¬ (2 ≤ remaining s ∧ bufRead s s.rsmPos = 0x55 ∧ bufRead s (s.rsmPos + 1) = 0x55) ∧
      accumFull s = false ∧ t = appendByte (bufRead s s.rsmPos) s) := by
  unfold loopPass passAppend at h
  split at h
  · split at h
    · cases h
    split at h
    · cases h
    split at h
    · rename_i hm h0 h1 hb
      cases h
      exact .inl ⟨hm, by omega, hb.1, hb.2, rfl⟩
    · cases h
  · split at h
    · cases h
    split at h
    · split at h
      · cases h
      · rename_i hm h0 h1 hf
        cases h
        exact .inr (.inr ⟨hm, by omega, by omega, by simpa using hf, rfl⟩)
    split at h
    · rename_i hm h0 h1 hb
      cases h
      exact .inr (.inl ⟨hm, by omega, hb.1, hb.2, rfl⟩)
    · split at h
      · cases h
      · rename_i hm h0 h1 hb hf
        cases h
        exact .inr (.inr ⟨hm, by omega, fun hc => hb hc.2, by simpa using hf, rfl⟩)

/-- A pass that stops changes nothing (R163, R164, R168), and says why it stopped. -/
theorem loopPass_stop {s t : State} (h : loopPass s = .stop t) :
    t = s ∧ (remaining s = 0 ∨ (s.rsmMode = .awaitingFrameStart ∧
      (remaining s = 1 ∨ ¬ (bufRead s s.rsmPos = 0xAA ∧ bufRead s (s.rsmPos + 1) = 0xAA)))) := by
  unfold loopPass passAppend at h
  split at h
  · split at h
    · cases h; exact ⟨rfl, .inl ‹_›⟩
    split at h
    · cases h; exact ⟨rfl, .inr ⟨‹_›, .inl ‹_›⟩⟩
    split at h
    · cases h
    · cases h; exact ⟨rfl, .inr ⟨‹_›, .inr ‹_›⟩⟩
  · split at h
    · cases h; exact ⟨rfl, .inl ‹_›⟩
    split at h
    · split at h <;> cases h
    split at h
    · cases h
    · split at h <;> cases h

/-- A pass that finds the accumulator full leaves the state as it was (R216). -/
theorem loopPass_full {s t : State} (h : loopPass s = .full t) :
    t = s ∧ s.rsmMode = .accumulatingPayload ∧ 1 ≤ remaining s ∧ accumFull s = true := by
  unfold loopPass passAppend at h
  split at h
  · split at h
    · cases h
    split at h
    · cases h
    split at h <;> cases h
  · split at h
    · cases h
    split at h
    · split at h
      · cases h; exact ⟨rfl, ‹_›, by omega, ‹_›⟩
      · cases h
    split at h
    · cases h
    · split at h
      · cases h; exact ⟨rfl, ‹_›, by omega, ‹_›⟩
      · cases h

/-- A property that every pass keeps holds where the loop ends, however it ends. -/
theorem runLoop_induction (P : State → Prop) (hgo : ∀ s t, P s → loopPass s = .go t → P t) :
    ∀ (n : Nat) (s : State), P s → P (runLoop n s).state := by
  intro n
  induction n with
  | zero => intro s h; exact h
  | succ n ih =>
    intro s h
    rw [runLoop]
    cases hp : loopPass s with
    | go t => exact ih t (hgo s t h hp)
    | stop t => exact (loopPass_stop hp).1 ▸ h
    | full t => exact (loopPass_full hp).1 ▸ h

/-- What PROCESS's loop never touches: the parameters, the sender's and the host's state, and the buffer; and the outputs
only grow. -/
abbrev LoopFrame (s t : State) : Prop :=
  t.params = s.params ∧ t.ckAcc = s.ckAcc ∧ t.faultMark = s.faultMark ∧ t.buf = s.buf ∧ t.op = s.op ∧
  t.inbox = s.inbox ∧ t.hostRetained = s.hostRetained ∧ t.txStream = s.txStream ∧
  s.emitted <+: t.emitted ∧ s.portLog <+: t.portLog

theorem runLoop_frame (n : Nat) (s : State) : LoopFrame s (runLoop n s).state := by
  refine runLoop_induction (LoopFrame s) (fun a b ha hab => ?_) n s (by simp [LoopFrame])
  obtain ⟨h1, h2, h3, h4, h5, h6, h7, h8, h9, h10⟩ := ha
  rcases loopPass_go hab with ⟨-, -, -, -, rfl⟩ | ⟨-, -, -, -, rfl⟩ | ⟨-, -, -, -, rfl⟩
  · exact ⟨h1, h2, h3, h4, h5, h6, h7, h8, h9, h10⟩
  · exact ⟨h1, h2, h3, h4, h5, h6, h7, h8, h9.trans (List.prefix_append _ _), h10.trans (List.prefix_append _ _)⟩
  · exact ⟨h1, h2, h3, h4, h5, h6, h7, h8, h9, h10⟩

/-! ### Two loops over the same buffer -/

/-- Two states whose Reassembler registers and buffers agree, and whose emissions and port events since `a` and `a'`
agree. -/
abbrev SameScan (a a' s s' : State) : Prop :=
  s'.buf = s.buf ∧ s'.rsmMode = s.rsmMode ∧ s'.rsmAccum = s.rsmAccum ∧ s'.rsmPos = s.rsmPos ∧
  s'.rsmCursor = s.rsmCursor ∧ (∃ fs, s.emitted = a.emitted ++ fs ∧ s'.emitted = a'.emitted ++ fs) ∧
  ∃ es, s.portLog = a.portLog ++ es ∧ s'.portLog = a'.portLog ++ es

/-- Where one loop meets no full accumulator, the other, whatever its parameters, meets one or ends alike. -/
theorem runLoop_sameScan {a a' : State} (n : Nat) {s s' : State} (h : SameScan a a' s s') :
    (∃ t, runLoop n s = .full t) ∨ (∃ t', runLoop n s' = .full t') ∨
    (∃ t t', SameScan a a' t t' ∧ ((runLoop n s = .go t ∧ runLoop n s' = .go t') ∨
      (runLoop n s = .stop t ∧ runLoop n s' = .stop t'))) := by
  induction n generalizing s s' with
  | zero => exact .inr (.inr ⟨s, s', h, .inl ⟨rfl, rfl⟩⟩)
  | succ n ih =>
    obtain ⟨hb, hm, ha, hp, hc, ⟨fs, he, he'⟩, es, hl, hl'⟩ := h
    have hr : remaining s' = remaining s := by simp [remaining, hb, hp]
    have hrd : ∀ p, bufRead s' p = bufRead s p := fun p => by simp [bufRead, hb]
    have key : (∃ t, loopPass s = .full t) ∨ (∃ t', loopPass s' = .full t') ∨
        (loopPass s = .stop s ∧ loopPass s' = .stop s') ∨
        (∃ t t', loopPass s = .go t ∧ loopPass s' = .go t' ∧ SameScan a a' t t') := by
      unfold loopPass passAppend
      rw [hm, hr, hp, hrd, hrd]
      cases s.rsmMode
      · dsimp only
        split_ifs
        · exact .inr (.inr (.inl ⟨rfl, rfl⟩))
        · exact .inr (.inr (.inl ⟨rfl, rfl⟩))
        · exact .inr (.inr (.inr ⟨enterFrame s, enterFrame s', rfl, rfl, hb, rfl, ha, by simp [hp], hc,
            ⟨fs, he, he'⟩, es, hl, hl'⟩))
        · exact .inr (.inr (.inl ⟨rfl, rfl⟩))
      · have happ : SameScan a a' (appendByte (bufRead s s.rsmPos) s) (appendByte (bufRead s s.rsmPos) s') :=
          ⟨hb, hm, by simp [ha], by simp [hp], hc, ⟨fs, he, he'⟩, es, hl, hl'⟩
        have hcl : SameScan a a' (closeFrame s) (closeFrame s') :=
          ⟨hb, rfl, rfl, by simp [hp], by simp [hp], ⟨fs ++ [s.rsmAccum], by simp [he], by simp [he', ha]⟩,
            es ++ [.frame (lengthField s.rsmAccum) s.rsmAccum], by simp [hl], by simp [hl', ha]⟩
        dsimp only
        split_ifs
        all_goals first
          | exact .inl ⟨_, rfl⟩
          | exact .inr (.inl ⟨_, rfl⟩)
          | exact .inr (.inr (.inl ⟨rfl, rfl⟩))
          | exact .inr (.inr (.inr ⟨_, _, rfl, rfl, happ⟩))
          | exact .inr (.inr (.inr ⟨_, _, rfl, rfl, hcl⟩))
    rcases key with ⟨t, ht⟩ | ⟨t, ht⟩ | ⟨h1, h2⟩ | ⟨t, t', h1, h2, h3⟩
    · exact .inl ⟨t, by rw [runLoop, ht]⟩
    · exact .inr (.inl ⟨t, by rw [runLoop, ht]⟩)
    · exact .inr (.inr ⟨s, s', ⟨hb, hm, ha, hp, hc, ⟨fs, he, he'⟩, es, hl, hl'⟩, .inr ⟨by rw [runLoop, h1], by rw [runLoop, h2]⟩⟩)
    · rw [runLoop, runLoop, h1, h2]
      exact ih h3

end Sys2Proof.Machine
end

