-- ==== Sys2Proof/Laws/Parse.lean ====
section
/-! SUPPORT. PROCESS as a function of the buffer, by recursion on the bytes: where a frame's closing pair stands, which
frames a buffer holds, and that the loop of R160 finds exactly those. -/

namespace Sys2Proof.Machine

/-- The bytes before the first `55 55` pair, and the bytes after it (R165, R166). -/
def tailSplit : Bytes → Option (Bytes × Bytes)
  | [] => none
  | [_] => none
  | a :: b :: r =>
    if a = 0x55 ∧ b = 0x55 then some ([], r) else (tailSplit (b :: r)).map fun p => (a :: p.1, p.2)

/-- The frames at the front of a buffer and the bytes they take, at most `n` of them. -/
def parse : Nat → Bytes → List Bytes × Nat
  | 0, _ => ([], 0)
  | _ + 1, [] => ([], 0)
  | _ + 1, [_] => ([], 0)
  | n + 1, a :: b :: r =>
    if a = 0xAA ∧ b = 0xAA then
      match tailSplit r with
      | none => ([], 0)
      | some p => (p.1 :: (parse n p.2).1, p.1.length + 4 + (parse n p.2).2)
    else ([], 0)

/-- A split closing pair, written out. -/
theorem tailSplit_some {w f r : Bytes} (h : tailSplit w = some (f, r)) : w = f ++ 0x55 :: 0x55 :: r := by
  induction w using tailSplit.induct generalizing f r with
  | case1 => cases h
  | case2 => cases h
  | case3 a b r' hc =>
    rw [tailSplit, if_pos hc] at h
    cases h
    rw [hc.1, hc.2]
    rfl
  | case4 a b r' hn ih =>
    rw [tailSplit, if_neg hn] at h
    obtain ⟨p, hp, he⟩ := Option.map_eq_some_iff.1 h
    cases he
    simp [ih hp]

/-- The bytes still in the window at the scan position. -/
def window (s : State) : Bytes := s.buf.drop s.rsmPos

theorem window_length (s : State) : (window s).length = remaining s := by simp [window, remaining]

theorem bufRead_window (s : State) (k : Nat) : bufRead s (s.rsmPos + k) = (window s).getD k 0 := by
  simp [bufRead, window, List.getD_eq_getElem?_getD]

/-- A window one byte on. -/
theorem window_drop (s t : State) (k : Nat) (hb : t.buf = s.buf) (hp : t.rsmPos = s.rsmPos + k) :
    window t = (window s).drop k := by simp [window, hb, hp, Nat.add_comm]

/-- One pass as a function of the window. -/
theorem loopPass_window (s : State) :
    loopPass s = match s.rsmMode, window s with
      | .awaitingFrameStart, [] => .stop s
      | .awaitingFrameStart, [_] => .stop s
      | .awaitingFrameStart, a :: b :: _ => if a = 0xAA ∧ b = 0xAA then .go (enterFrame s) else .stop s
      | .accumulatingPayload, [] => .stop s
      | .accumulatingPayload, [a] => if accumFull s then .full s else .go (appendByte a s)
      | .accumulatingPayload, a :: b :: _ =>
        if a = 0x55 ∧ b = 0x55 then .go (closeFrame s)
        else if accumFull s then .full s else .go (appendByte a s) := by
  have h0 := bufRead_window s 0
  have h1 := bufRead_window s 1
  have hl := window_length s
  rw [Nat.add_zero] at h0
  unfold loopPass passAppend
  rw [h0, h1, ← hl]
  rcases window s with _ | ⟨a, _ | ⟨b, r⟩⟩ <;> cases s.rsmMode <;> simp

/-- There is room for every byte of the buffer (R173). -/
abbrev Room (s : State) : Prop := s.buf.length ≤ s.params.accumCap.getD s.buf.length

theorem accumFull_of_room {s : State} (h : Room s) (hl : s.rsmAccum.length < s.buf.length) : accumFull s = false := by
  rw [accumFull_eq_false]
  intro cap hc
  simp only [Room, hc, Option.getD_some] at h
  omega

/-- Inside a frame with no closing pair ahead, the loop appends every byte and stops (R166, R167, R168). -/
theorem runLoop_unclosed {w : Bytes} (n : Nat) {s : State} (hw : window s = w) (ht : tailSplit w = none)
    (hm : s.rsmMode = .accumulatingPayload) (hr : Room s) (hl : s.rsmAccum.length + w.length ≤ s.buf.length)
    (hn : w.length < n) :
    ∃ t, runLoop n s = .stop t ∧ t.emitted = s.emitted ∧ t.rsmCursor = s.rsmCursor ∧
      t.rsmMode = .accumulatingPayload ∧ t.rsmAccum = s.rsmAccum ++ w ∧ t.rsmPos = s.rsmPos + w.length := by
  induction w generalizing n s with
  | nil =>
    obtain ⟨n, rfl⟩ : ∃ m, n = m + 1 := ⟨n - 1, by simp at hn; omega⟩
    refine ⟨s, ?_, rfl, rfl, hm, by simp, rfl⟩
    rw [runLoop, loopPass_window, hw, hm]
  | cons a w ih =>
    obtain ⟨n, rfl⟩ : ∃ m, n = m + 1 := ⟨n - 1, by simp at hn; omega⟩
    simp only [List.length_cons] at hl hn
    have hf := accumFull_of_room hr (by omega)
    have hp : loopPass s = .go (appendByte a s) := by
      rw [loopPass_window, hw, hm]
      cases w with
      | nil => simp [hf]
      | cons b r =>
        have hne : ¬ (a = 0x55 ∧ b = 0x55) := fun hc => by rw [tailSplit, if_pos hc] at ht; cases ht
        simp only [hf, if_neg hne]
        rfl
    have ht' : tailSplit w = none := by
      cases w with
      | nil => rfl
      | cons b r =>
        have hne : ¬ (a = 0x55 ∧ b = 0x55) := fun hc => by rw [tailSplit, if_pos hc] at ht; cases ht
        rw [tailSplit, if_neg hne] at ht
        simpa using ht
    obtain ⟨t, h1, h2, h3, h4, h5, h6⟩ := ih n (s := appendByte a s)
      (by rw [window_drop s (appendByte a s) 1 rfl rfl, hw]; rfl) ht' hm hr (by simp; omega) (by omega)
    refine ⟨t, by rw [runLoop, hp]; exact h1, h2, h3, h4, by simp [h5], ?_⟩
    rw [h6]; simp; omega

/-- Inside a frame whose closing pair stands ahead, the loop emits the frame and goes on after the pair (R165, R166). -/
theorem runLoop_closed {w : Bytes} (n : Nat) {s : State} {f r : Bytes} (hw : window s = w)
    (ht : tailSplit w = some (f, r)) (hm : s.rsmMode = .accumulatingPayload) (hr : Room s)
    (hl : s.rsmAccum.length + w.length ≤ s.buf.length) (hn : w.length < n) :
    ∃ (m : Nat) (t : State), runLoop n s = runLoop m t ∧ r.length < m ∧
      t.emitted = s.emitted ++ [s.rsmAccum ++ f] ∧ t.rsmPos = s.rsmPos + f.length + 2 ∧ t.rsmCursor = t.rsmPos ∧
      t.rsmMode = .awaitingFrameStart ∧ t.rsmAccum = [] ∧ t.buf = s.buf ∧ t.params = s.params := by
  induction w generalizing n s f with
  | nil => cases ht
  | cons a w ih =>
    obtain ⟨n, rfl⟩ : ∃ m, n = m + 1 := ⟨n - 1, by simp at hn; omega⟩
    simp only [List.length_cons] at hl hn
    have hf := accumFull_of_room hr (by omega)
    cases w with
    | nil => cases ht
    | cons b r' =>
      simp only [List.length_cons] at hl hn
      rw [tailSplit] at ht
      by_cases hc : a = 0x55 ∧ b = 0x55
      · rw [if_pos hc] at ht
        cases ht
        have hp : loopPass s = .go (closeFrame s) := by rw [loopPass_window, hw, hm]; simp only [if_pos hc]
        exact ⟨n, closeFrame s, by rw [runLoop, hp], by omega, by simp, rfl, rfl, rfl, rfl, rfl, rfl⟩
      · rw [if_neg hc] at ht
        obtain ⟨q, hq, he⟩ := Option.map_eq_some_iff.1 ht
        cases he
        have hp : loopPass s = .go (appendByte a s) := by
          rw [loopPass_window, hw, hm]
          simp only [if_neg hc, hf]
          rfl
        obtain ⟨m, t, h1, h2, h3, h4, h5, h6, h7, h8, h9⟩ := ih n (s := appendByte a s) (f := q.1)
          (by rw [window_drop s (appendByte a s) 1 rfl rfl, hw]; rfl) hq hm hr (by simp; omega) (by simp; omega)
        refine ⟨m, t, by rw [runLoop, hp]; exact h1, h2, by simp [h3], ?_, h5, h6, h7, h8, h9⟩
        rw [h4]; simp; omega

/-- At a frame boundary the loop emits the frames `parse` finds, and leaves the cursor after them (R160, R169). -/
theorem runLoop_parse (n : Nat) {k : Nat} {s : State} (hk : (window s).length ≤ k) (hm : s.rsmMode = .awaitingFrameStart)
    (ha : s.rsmAccum = []) (hc : s.rsmCursor = s.rsmPos) (hr : Room s) (hn : (window s).length < n) :
    ∃ t, runLoop n s = .stop t ∧ t.emitted = s.emitted ++ (parse k (window s)).1 ∧
      t.rsmCursor = s.rsmCursor + (parse k (window s)).2 := by
  induction k generalizing n s with
  | zero =>
    obtain ⟨n, rfl⟩ : ∃ m, n = m + 1 := ⟨n - 1, by omega⟩
    have hw : window s = [] := List.length_eq_zero_iff.1 (by omega)
    exact ⟨s, by rw [runLoop, loopPass_window, hm, hw], by simp [parse], by simp [parse]⟩
  | succ k ih =>
    obtain ⟨n, rfl⟩ : ∃ m, n = m + 1 := ⟨n - 1, by omega⟩
    rcases hw : window s with _ | ⟨a, _ | ⟨b, r⟩⟩
    · exact ⟨s, by rw [runLoop, loopPass_window, hm, hw], by simp [parse], by simp [parse]⟩
    · exact ⟨s, by rw [runLoop, loopPass_window, hm, hw], by simp [parse], by simp [parse]⟩
    · rw [hw] at hk hn
      simp only [List.length_cons] at hk hn
      by_cases hh : a = 0xAA ∧ b = 0xAA
      · have hp : loopPass s = .go (enterFrame s) := by rw [loopPass_window, hm, hw]; simp only [if_pos hh]
        have hw' : window (enterFrame s) = r := by rw [window_drop s (enterFrame s) 2 rfl rfl, hw]; rfl
        have hlen : r.length + 2 ≤ s.buf.length := by
          have := congrArg List.length hw
          simp [window] at this
          omega
        rw [runLoop, hp]
        simp only [parse, if_pos hh]
        cases ht : tailSplit r with
        | none =>
          obtain ⟨t, h1, h2, h3, -⟩ := runLoop_unclosed n hw' ht rfl hr (by simp [ha]; omega) (by omega)
          exact ⟨t, h1, by simp [h2], by simp [h3]⟩
        | some q =>
          obtain ⟨f, r'⟩ := q
          obtain ⟨m, t, h1, h2, h3, h4, h5, h6, h7, h8, h9⟩ :=
            runLoop_closed n hw' ht rfl hr (by simp [ha]; omega) (by omega)
          have hrr := tailSplit_some ht
          have hrl : r.length = f.length + 2 + r'.length := by rw [hrr]; simp; omega
          have hwt : window t = r' := by
            rw [window_drop (enterFrame s) t (f.length + 2) h8 (by rw [h4]; omega), hw', hrr]
            simp
          obtain ⟨u, g1, g2, g3⟩ := ih m (s := t) (by rw [hwt]; omega) h6 h7 h5
            (by simpa [Room, h8, h9] using hr) (by rw [hwt]; exact h2)
          rw [hwt] at g2 g3
          refine ⟨u, by rw [h1]; exact g1, by simp [g2, h3, ha], ?_⟩
          simp only [g3, h5, h4, enterFrame_rsmPos, hc]
          omega
      · refine ⟨s, ?_, by rw [parse, if_neg hh, List.append_nil], by rw [parse, if_neg hh, Nat.add_zero]⟩
        rw [runLoop, loopPass_window, hm, hw]
        simp only [if_neg hh]

/-- The loop of a whole PROCESS, where there is room: it stops, with the frames and the count of `parse`. -/
theorem runLoop_process (buf : Bytes) (s : State) (hr : buf.length ≤ s.params.accumCap.getD buf.length) :
    ∃ t, runLoop (buf.length + 1) (initReassembler buf s) = .stop t ∧
      t.emitted = s.emitted ++ (parse buf.length buf).1 ∧ t.rsmCursor = (parse buf.length buf).2 := by
  have hw : window (initReassembler buf s) = buf := by simp [window]
  obtain ⟨t, h1, h2, h3⟩ := runLoop_parse (buf.length + 1) (k := buf.length) (s := initReassembler buf s)
    (by rw [hw]) rfl rfl rfl hr (by rw [hw]; omega)
  rw [hw] at h2 h3
  exact ⟨t, h1, by simpa using h2, by simpa using h3⟩

/-- The frames of a buffer, and the count, are those of `parse`. -/
theorem framesOf_eq_parse (buf : Bytes) : framesOf buf = (parse buf.length buf).1 := by
  obtain ⟨t, h1, h2, -⟩ := runLoop_process buf State.reset (Nat.le_refl _)
  rw [framesOf, parsed, h1]
  exact h2

theorem consumedOf_eq_parse (buf : Bytes) : consumedOf buf = (parse buf.length buf).2 := by
  obtain ⟨t, h1, -, h3⟩ := runLoop_process buf State.reset (Nat.le_refl _)
  rw [consumedOf, parsed, h1]
  exact h3

end Sys2Proof.Machine
end

