-- ==== Sys2Proof/Laws/Inner.lean ====
section
/-! SUPPORT. The steps inside an operation, said once: a step of a PROCESS in progress, chosen by the key, is a pass of the
loop of R160; a byte case reads one byte. -/

namespace Sys2Proof.Machine

/-- A row that is the one selected is executed. -/
theorem whenSelected_self {row : Instr} {s : State} (h : nextRow s = some row)
    (o : Host.Outcome State Fault Refusal) : whenSelected row s o = o := if_pos h

/-- One step inside a PROCESS in progress, chosen by R88's key, does what one pass of R160's loop does. -/
theorem stepInner_process {s : State} (h : s.op = .process) :
    stepInner s = match loopPass s with
      | .go t => .next t
      | .stop t => .next (stopLoop t)
      | .full t => raiseCapacity t := by
  have hn : nextRow s = (decodeStepKey (stepKey s)).toOption := by rw [nextRow, h]
  have hk : stepKey s = packKey (avail s) s.rsmMode (if avail s = 0b00 then 0 else bufRead s s.rsmPos)
      (if avail s = 0b10 then bufRead s (s.rsmPos + 1) else 0) := rfl
  rw [hk, decodeStepKey_packKey] at hn
  unfold loopPass passAppend
  by_cases h0 : remaining s = 0
  · have ha : avail s = 0b00 := if_pos h0
    rw [ha] at hn
    rw [stepInner, show nextRow s = some (.rsmEnd s.rsmMode) from hn]
    simp only [exec, execRsmEnd, whenSelected_self (show nextRow s = some (.rsmEnd s.rsmMode) from hn)]
    cases s.rsmMode <;> simp [h0]
  by_cases h1 : remaining s = 1
  · have ha : avail s = 0b01 := by rw [avail, if_neg h0, if_pos h1]
    rw [ha] at hn
    cases hm : s.rsmMode <;> rw [hm] at hn
    · have hs : nextRow s = some (.rsmAwShort (bufRead s s.rsmPos)) := hn
      rw [stepInner, hs]
      simp only [exec, execRsmAwShort, whenSelected_self hs, if_neg h0, if_pos h1]
    · have hs : nextRow s = some (.rsmAcLast (bufRead s s.rsmPos)) := hn
      rw [stepInner, hs]
      simp only [exec, execRsmAcLast, whenSelected_self hs, if_neg h0, if_pos h1, stepAppend]
      cases accumFull s <;> rfl
  · have ha : avail s = 0b10 := by rw [avail, if_neg h0, if_neg h1]
    rw [ha] at hn
    cases hm : s.rsmMode <;> rw [hm] at hn
    · by_cases hb : bufRead s s.rsmPos = 0xAA ∧ bufRead s (s.rsmPos + 1) = 0xAA
      · have hs : nextRow s = some .rsmAwHead := by rw [hn]; simp only [hb]; rfl
        rw [stepInner, hs]
        simp only [exec, execRsmAwHead, whenSelected_self hs, if_neg h0, if_neg h1, if_pos hb]
      · have hs : nextRow s = some (.rsmAwDesync (bufRead s s.rsmPos) (bufRead s (s.rsmPos + 1))) := by
          rw [hn]
          show Except.toOption (.ok (if bufRead s s.rsmPos = 0xAA ∧ bufRead s (s.rsmPos + 1) = 0xAA then _ else _)) = _
          rw [if_neg hb]
          rfl
        rw [stepInner, hs]
        simp only [exec, execRsmAwDesync, whenSelected_self hs, if_neg h0, if_neg h1, if_neg hb]
    · by_cases hb : bufRead s s.rsmPos = 0x55 ∧ bufRead s (s.rsmPos + 1) = 0x55
      · have hs : nextRow s = some .rsmAcTail := by rw [hn]; simp only [hb]; rfl
        rw [stepInner, hs]
        simp only [exec, execRsmAcTail, whenSelected_self hs, if_neg h0, if_neg h1, if_pos hb]
      · have hs : nextRow s = some (.rsmAcAppend (bufRead s s.rsmPos) (bufRead s (s.rsmPos + 1))) := by
          rw [hn]
          show Except.toOption (.ok (if bufRead s s.rsmPos = 0x55 ∧ bufRead s (s.rsmPos + 1) = 0x55 then _ else _)) = _
          rw [if_neg hb]
          rfl
        rw [stepInner, hs]
        simp only [exec, execRsmAcAppend, whenSelected_self hs, if_neg h0, if_neg h1, if_neg hb, stepAppend]
        cases accumFull s <;> rfl

/-- One step inside an ESCAPE in progress reads one byte and appends what ESCAPE makes of it (R101, R102). -/
theorem stepInner_escape {s : State} {b : Byte} {rest out : Bytes} (h : s.op = .escape (b :: rest) out) :
    stepInner s = .next { s with op := .escape rest (out ++ escape [b]) } := by
  have hn : nextRow s = some (decodeEscByte b) := by rw [nextRow, h]
  rw [stepInner, hn]
  unfold decodeEscByte at hn ⊢
  split_ifs at hn ⊢ with h1 h2 h3
  · simp only [exec, execEscPairA5, whenSelected_self hn, contribute, h, Op.consume]; subst h1; rfl
  · simp only [exec, execEscPairAA, whenSelected_self hn, contribute, h, Op.consume]; subst h2; rfl
  · simp only [exec, execEscPair55, whenSelected_self hn, contribute, h, Op.consume]; subst h3; rfl
  · simp only [exec, execEscLit, whenSelected_self hn, contribute, h, Op.consume, escape, h1, h2, h3]; rfl

/-- The same inside ENCODE's step 3. -/
theorem stepInner_encodeEsc {s : State} {b : Byte} {rest out : Bytes} (h : s.op = .encodeEsc (b :: rest) out) :
    stepInner s = .next { s with op := .encodeEsc rest (out ++ escape [b]) } := by
  have hn : nextRow s = some (decodeEscByte b) := by rw [nextRow, h]
  rw [stepInner, hn]
  unfold decodeEscByte at hn ⊢
  split_ifs at hn ⊢ with h1 h2 h3
  · simp only [exec, execEscPairA5, whenSelected_self hn, contribute, h, Op.consume]; subst h1; rfl
  · simp only [exec, execEscPairAA, whenSelected_self hn, contribute, h, Op.consume]; subst h2; rfl
  · simp only [exec, execEscPair55, whenSelected_self hn, contribute, h, Op.consume]; subst h3; rfl
  · simp only [exec, execEscLit, whenSelected_self hn, contribute, h, Op.consume, escape, h1, h2, h3]; rfl

/-- One step inside an UNESCAPE in progress reads one byte and keeps or drops it (R106, R107). -/
theorem stepInner_unescape {s : State} {b : Byte} {rest out : Bytes} (h : s.op = .unescape (b :: rest) out) :
    stepInner s = .next { s with op := .unescape rest (out ++ unescape [b]) } := by
  have hn : nextRow s = some (decodeUnescByte b) := by rw [nextRow, h]
  rw [stepInner, hn]
  unfold decodeUnescByte at hn ⊢
  split_ifs at hn ⊢ with h1
  · simp only [exec, execUnescDrop, whenSelected_self hn, contribute, h, Op.consume]; subst h1; rfl
  · simp only [exec, execUnescKeep, whenSelected_self hn, contribute, h, Op.consume, unescape, h1]; rfl

/-- One step inside a checksum in progress adds one byte (R121). -/
theorem stepInner_cksum {s : State} {b : Byte} {rest : Bytes} (h : s.op = .cksum (b :: rest)) :
    stepInner s = .next { s with op := .cksum rest, ckAcc := ckAdd s.ckAcc b } := by
  have hn : nextRow s = some (.ckStep b) := by rw [nextRow, h]; rfl
  rw [stepInner, hn]
  simp only [exec, execCkStep, whenSelected_self hn, contribute, h, Op.consume]
  rfl

/-- The same inside ENCODE's step 2. -/
theorem stepInner_encodeSum {s : State} {b : Byte} {payload rest : Bytes} (h : s.op = .encodeSum payload (b :: rest)) :
    stepInner s = .next { s with op := .encodeSum payload rest, ckAcc := ckAdd s.ckAcc b } := by
  have hn : nextRow s = some (.ckStep b) := by rw [nextRow, h]; rfl
  rw [stepInner, hn]
  simp only [exec, execCkStep, whenSelected_self hn, contribute, h, Op.consume]
  rfl

/-- Everything a step can be: the fault again, a wait, a request served, or a step inside an operation. -/
theorem step_cases (s : State) :
    (s.faultMark = true ∧ step s = raiseCapacity s) ∨
    (Ready s ∧ s.inbox = [] ∧ step s = .next s) ∨
    (Ready s ∧ ∃ r rest, s.inbox = r :: rest ∧ step s = serve r { s with inbox := rest }) ∨
    (s.faultMark = false ∧ s.op ≠ .idle ∧ step s = stepInner s) := by
  unfold step
  cases hf : s.faultMark
  · by_cases ho : s.op = .idle
    · simp only [ho, if_true, stepIdle, Ready, hf]
      cases s.inbox with
      | nil => simp
      | cons r rest => simp
    · simp [ho]
  · simp

end Sys2Proof.Machine
end

