-- ==== Sys2Proof/Laws/PerInstr.lean ====
section
/-! SUPPORT. Laws stated of every instruction, one lemma per constructor. RowBits: an instruction's code lies in its row's
decode table and shows that row's fixed bits (the "format", "match" and "mask" columns of spec/opcode_table.json). -/

namespace Sys2Proof.Laws

/-- A command packet whose selector is `op`, followed by LEN and as many operand bytes (R80, R81). -/
def RowBits.Packet (op : Byte) (lenBytes : Nat) (c : Code) : Prop :=
  ∃ len opd : Bytes, c = .packet (op :: (len ++ opd)) ∧ len.length = lenBytes ∧
    (fitsLen lenBytes opd.length = true → leNat len = opd.length)

/-- A step key with `(KEY & mask) = match` (R88). -/
def RowBits.Key (mask pattern : BitVec 19) (c : Code) : Prop :=
  ∃ k : BitVec 19, c = .stepKey k ∧ k &&& mask = pattern

/-- The row of spec/opcode_table.json each instruction's code belongs to. -/
def RowBits.Statement (i : Instr) : Prop :=
  ∀ lenBytes : Nat,
    match i with
    | .escape _ => RowBits.Packet 0x01 lenBytes (encode lenBytes i)
    | .unescape _ => RowBits.Packet 0x02 lenBytes (encode lenBytes i)
    | .cksum16 _ => RowBits.Packet 0x03 lenBytes (encode lenBytes i)
    | .encode _ => RowBits.Packet 0x04 lenBytes (encode lenBytes i)
    | .process _ => RowBits.Packet 0x05 lenBytes (encode lenBytes i)
    | .rsmReset _ => RowBits.Packet 0x06 lenBytes (encode lenBytes i)
    | .escPairA5 => encode lenBytes i = .escByte 0xA5
    | .escPairAA => encode lenBytes i = .escByte 0xAA
    | .escPair55 => encode lenBytes i = .escByte 0x55
    | .escLit b => encode lenBytes i = .escByte b
    | .unescDrop => encode lenBytes i = .unescByte 0xA5
    | .unescKeep b => encode lenBytes i = .unescByte b
    | .ckStep b => encode lenBytes i = .ckByte b
    | .rsmEnd _ => RowBits.Key 0x60000 0x00000 (encode lenBytes i)
    | .rsmAwShort _ => RowBits.Key 0x70000 0x20000 (encode lenBytes i)
    | .rsmAwHead => RowBits.Key 0x7FFFF 0x4AAAA (encode lenBytes i)
    | .rsmAwDesync _ _ => RowBits.Key 0x70000 0x40000 (encode lenBytes i)
    | .rsmAcLast _ => RowBits.Key 0x70000 0x30000 (encode lenBytes i)
    | .rsmAcTail => RowBits.Key 0x7FFFF 0x55555 (encode lenBytes i)
    | .rsmAcAppend _ _ => RowBits.Key 0x70000 0x50000 (encode lenBytes i)

theorem RowBits.packet_of (op : Byte) (lenBytes : Nat) (opd : Bytes) :
    RowBits.Packet op lenBytes (.packet (packetOf lenBytes op opd)) :=
  ⟨leBytes lenBytes opd.length, opd, rfl, leBytes_length _ _,
    fun h => leNat_leBytes _ _ (by simpa [fitsLen] using h)⟩

theorem RowBits.key_of (a : BitVec 2) (m : Mode) (b0 b1 : Byte) (mask pattern : BitVec 19)
    (hm : mask &&& 0x0FFFF = 0) (h : packKey a m 0 0 &&& mask = pattern) :
    RowBits.Key mask pattern (.stepKey (packKey a m b0 b1)) :=
  ⟨_, rfl, by rw [packKey_and_high a m b0 b1 mask hm, h]⟩

theorem RowBits.escape (s : Bytes) : RowBits.Statement (.escape s) := fun n => RowBits.packet_of _ n s
theorem RowBits.unescape (s : Bytes) : RowBits.Statement (.unescape s) := fun n => RowBits.packet_of _ n s
theorem RowBits.cksum16 (s : Bytes) : RowBits.Statement (.cksum16 s) := fun n => RowBits.packet_of _ n s
theorem RowBits.encode (s : Bytes) : RowBits.Statement (.encode s) := fun n => RowBits.packet_of _ n s
theorem RowBits.process (s : Bytes) : RowBits.Statement (.process s) := fun n => RowBits.packet_of _ n s
theorem RowBits.rsmReset (s : Bytes) : RowBits.Statement (.rsmReset s) := fun n => RowBits.packet_of _ n s
theorem RowBits.escPairA5 : RowBits.Statement .escPairA5 := fun _ => rfl
theorem RowBits.escPairAA : RowBits.Statement .escPairAA := fun _ => rfl
theorem RowBits.escPair55 : RowBits.Statement .escPair55 := fun _ => rfl
theorem RowBits.escLit (b : Byte) : RowBits.Statement (.escLit b) := fun _ => rfl
theorem RowBits.unescDrop : RowBits.Statement .unescDrop := fun _ => rfl
theorem RowBits.unescKeep (b : Byte) : RowBits.Statement (.unescKeep b) := fun _ => rfl
theorem RowBits.ckStep (b : Byte) : RowBits.Statement (.ckStep b) := fun _ => rfl
theorem RowBits.rsmEnd (m : Mode) : RowBits.Statement (.rsmEnd m) := fun _ =>
  RowBits.key_of _ m 0 0 _ _ (by decide) (by cases m <;> decide)
theorem RowBits.rsmAwShort (b0 : Byte) : RowBits.Statement (.rsmAwShort b0) := fun _ =>
  RowBits.key_of _ _ b0 0 _ _ (by decide) (by decide)
theorem RowBits.rsmAwHead : RowBits.Statement .rsmAwHead := fun _ => ⟨_, rfl, by decide⟩
theorem RowBits.rsmAwDesync (b0 b1 : Byte) : RowBits.Statement (.rsmAwDesync b0 b1) := fun _ =>
  RowBits.key_of _ _ b0 b1 _ _ (by decide) (by decide)
theorem RowBits.rsmAcLast (b0 : Byte) : RowBits.Statement (.rsmAcLast b0) := fun _ =>
  RowBits.key_of _ _ b0 0 _ _ (by decide) (by decide)
theorem RowBits.rsmAcTail : RowBits.Statement .rsmAcTail := fun _ => ⟨_, rfl, by decide⟩
theorem RowBits.rsmAcAppend (b0 b1 : Byte) : RowBits.Statement (.rsmAcAppend b0 b1) := fun _ =>
  RowBits.key_of _ _ b0 b1 _ _ (by decide) (by decide)

end Sys2Proof.Laws
end

