-- ==== Sys2Proof/Laws/Room.lean ====
section
/-! SUPPORT. When a PROCESS finds its accumulator full: exactly where `hasRoom` says there is no room. -/

namespace Sys2Proof.Machine

/-- No pass writes the parameters (R11). -/
theorem loopPass_go_params {s t : State} (h : loopPass s = .go t) : t.params = s.params := by
  rcases loopPass_go h with ⟨-, -, -, -, rfl⟩ | ⟨-, -, -, -, rfl⟩ | ⟨-, -, -, -, rfl⟩ <;> rfl

/-- A frame emitted, or the frame in progress, is longer than `cap`. -/
abbrev Over (cap : Nat) (s : State) : Prop := (∃ f ∈ s.emitted, cap < f.length) ∨ cap < s.rsmAccum.length

/-- Once over, a loop stays over. -/
theorem runLoop_over {cap : Nat} (n : Nat) {s : State} (h : Over cap s) : Over cap (runLoop n s).state := by
  refine runLoop_induction (Over cap) (fun a b ha hab => ?_) n s h
  rcases loopPass_go hab with ⟨-, -, -, -, rfl⟩ | ⟨-, -, -, -, rfl⟩ | ⟨-, -, -, -, rfl⟩
  · exact ha
  · rcases ha with ⟨f, hf, hc⟩ | hc
    · exact .inl ⟨f, by simp [hf], hc⟩
    · exact .inl ⟨a.rsmAccum, by simp, hc⟩
  · rcases ha with ha | hc
    · exact .inl ha
    · exact .inr (by simp; omega)

/-- The frames emitted since `e` and the frame in progress are at most `cap` bytes long. -/
abbrev Within (cap : Nat) (e : List Bytes) (s : State) : Prop :=
  s.rsmAccum.length ≤ cap ∧ ∃ fs, s.emitted = e ++ fs ∧ ∀ f ∈ fs, f.length ≤ cap

/-- A loop with a capacity stays within it (R173). -/
theorem runLoop_within {cap : Nat} {e : List Bytes} (n : Nat) {s : State} (hp : s.params.accumCap = some cap)
    (h : Within cap e s) : Within cap e (runLoop n s).state := by
  refine (runLoop_induction (fun t => t.params.accumCap = some cap ∧ Within cap e t) (fun a b ha hab => ?_) n s ⟨hp, h⟩).2
  obtain ⟨hc, hl, fs, he, hfs⟩ := ha
  rcases loopPass_go hab with ⟨-, -, -, -, rfl⟩ | ⟨-, -, -, -, rfl⟩ | ⟨-, -, -, hf, rfl⟩
  · exact ⟨hc, hl, fs, he, hfs⟩
  · refine ⟨hc, by simp, fs ++ [a.rsmAccum], by simp [he], fun f hf => ?_⟩
    rcases List.mem_append.1 hf with hf | hf
    · exact hfs f hf
    · exact List.mem_singleton.1 hf ▸ hl
  · have hlt := accumFull_eq_false.1 hf cap hc
    exact ⟨hc, by simp; omega, fs, he, hfs⟩

/-- A pass of a loop without a capacity, beside one that finds its accumulator full. -/
theorem loopPass_full_beside {a a' : State} {s u t : State} (h : SameScan a a' s u) (hu : u.params.accumCap = none)
    (hs : loopPass s = .full t) : loopPass u = .go (appendByte (bufRead u u.rsmPos) u) := by
  obtain ⟨hb, hm, -, hp, -⟩ := h
  have hr : remaining u = remaining s := by simp [remaining, hb, hp]
  have hrd : ∀ p, bufRead u p = bufRead s p := fun p => by simp [bufRead, hb]
  have hf : accumFull u = false := accumFull_eq_false.2 (by simp [hu])
  unfold loopPass passAppend at hs ⊢
  rw [hm, hr, hp, hrd, hrd, hf]
  cases hmode : s.rsmMode <;> rw [hmode] at hs <;> dsimp only at hs ⊢ <;> split_ifs at hs ⊢ <;> simp_all

/-- Beside a loop that finds its accumulator full, a loop without a capacity ends over that capacity. -/
theorem runLoop_full_over {a a' : State} {cap : Nat} (n : Nat) {s u t : State} (h : SameScan a a' s u)
    (hu : u.params.accumCap = none) (hs : s.params.accumCap = some cap) (hr : runLoop n s = .full t) :
    Over cap (runLoop n u).state := by
  induction n generalizing s u with
  | zero => cases hr
  | succ n ih =>
    cases hps : loopPass s with
    | stop a => rw [runLoop, hps] at hr; cases hr
    | full a =>
      have hfull := (loopPass_full hps).2.2.2
      rw [runLoop, loopPass_full_beside h hu hps]
      refine runLoop_over n (.inr ?_)
      obtain ⟨-, -, ha, -⟩ := h
      simp only [accumFull, hs, decide_eq_true_eq] at hfull
      simp [ha]
      omega
    | go a =>
      rw [runLoop, hps] at hr
      have h1 := runLoop_sameScan 1 h
      simp only [runLoop, hps] at h1
      rcases h1 with ⟨x, hx⟩ | ⟨x, hx⟩ | ⟨x, x', hxx, hx⟩
      · cases hx
      · cases hpu : loopPass u with
        | go y => rw [hpu] at hx; cases hx
        | stop y => rw [hpu] at hx; cases hx
        | full y =>
          have := (loopPass_full hpu).2.2.2
          simp [accumFull, hu] at this
      · rcases hx with ⟨hx, hx'⟩ | ⟨hx, -⟩
        · cases hx
          cases hpu : loopPass u with
          | go y =>
            rw [hpu] at hx'
            cases hx'
            rw [runLoop, hpu]
            exact ih hxx (by rw [loopPass_go_params hpu, hu]) (by rw [loopPass_go_params hps, hs]) hr
          | stop y => rw [hpu] at hx'; cases hx'
          | full y => rw [hpu] at hx'; cases hx'
        · cases hx

/-- Two PROCESSes of one buffer start alike. -/
theorem sameScan_init (buf : Bytes) (s s' : State) :
    SameScan s s' (initReassembler buf s) (initReassembler buf s') :=
  ⟨rfl, rfl, rfl, rfl, rfl, ⟨[], by simp, by simp⟩, [], by simp, by simp⟩

/-- The loop of PROCESS on a buffer of acceptable length: without room it finds the accumulator full; with room it stops,
in the registers and with the frames and port events of `parsed`. -/
theorem runLoop_room (buf : Bytes) (s : State) (ho : overCapacity s.params buf.length = false) :
    (hasRoom s.params buf = false ∧ ∃ t, runLoop (buf.length + 1) (initReassembler buf s) = .full t) ∨
    (hasRoom s.params buf = true ∧ ∃ t, runLoop (buf.length + 1) (initReassembler buf s) = .stop t ∧
      t.emitted = s.emitted ++ framesOf buf ∧ t.rsmCursor = consumedOf buf ∧ t.rsmMode = (parsed buf).rsmMode ∧
      t.rsmPos = (parsed buf).rsmPos ∧ t.rsmAccum = (parsed buf).rsmAccum ∧
      t.portLog = s.portLog ++ (parsed buf).portLog) := by
  obtain ⟨u, hu, -, -⟩ := runLoop_process buf State.reset (Nat.le_refl _)
  have hpu : parsed buf = u := by rw [parsed, hu]; rfl
  have hre : State.reset.emitted = [] := rfl
  rcases runLoop_sameScan (buf.length + 1) (sameScan_init buf s State.reset) with
    ⟨t, ht⟩ | ⟨t, ht⟩ | ⟨t, t', hs, ht⟩
  · refine .inl ⟨?_, t, ht⟩
    have hfull : ∃ cap, s.params.accumCap = some cap := by
      cases hc : s.params.accumCap with
      | some cap => exact ⟨cap, rfl⟩
      | none =>
        have hstop := runLoop_process buf s (by simp [hc])
        obtain ⟨x, hx, -⟩ := hstop
        rw [ht] at hx
        cases hx
    obtain ⟨cap, hcap⟩ := hfull
    have hover := runLoop_full_over (buf.length + 1) (sameScan_init buf s State.reset) rfl hcap ht
    rw [hu] at hover
    rcases hover with ⟨f, hf, hl⟩ | hl
    · simp only [hasRoom, ho, hcap, Bool.not_false, Bool.true_and, Bool.and_eq_false_iff]
      exact .inl (List.all_eq_false.2 ⟨f, by rw [framesOf, hpu]; exact hf, by simp; omega⟩)
    · simp only [hasRoom, ho, hcap, Bool.not_false, Bool.true_and, Bool.and_eq_false_iff]
      exact .inr (by rw [hpu]; exact decide_eq_false (by simpa [Pass.state] using hl))
  · rw [hu] at ht; cases ht
  · rcases ht with ⟨-, ht⟩ | ⟨ht, ht'⟩
    · rw [hu] at ht; cases ht
    rw [hu] at ht'
    cases ht'
    obtain ⟨-, h2, h3, h4, h5, ⟨fs, h6, h7⟩, es, h8, h9⟩ := hs
    have hes : (parsed buf).portLog = es := by rw [hpu, h9]; rfl
    have hfs : framesOf buf = fs := by rw [framesOf, hpu, h7, hre, List.nil_append]
    refine .inr ⟨?_, t, ht, by rw [h6, hfs], by rw [consumedOf, hpu, h5], by rw [hpu, h2], by rw [hpu, h4],
      by rw [hpu, h3], by rw [h8, hes]⟩
    cases hc : s.params.accumCap with
    | none => simp [hasRoom, ho, hc]
    | some cap =>
      obtain ⟨hl, gs, hg, hgs⟩ := runLoop_within (buf.length + 1) (s := initReassembler buf s) (e := s.emitted) hc
        ⟨by simp, [], by simp, by simp⟩
      rw [ht] at hl hg
      have hgf : gs = fs := List.append_cancel_left (hg.symm.trans h6)
      have hl' : (parsed buf).rsmAccum.length ≤ cap := by rw [hpu, h3]; exact hl
      simp only [hasRoom, ho, hc, hl', hfs, ← hgf, decide_true, Bool.and_true, Bool.not_false, Bool.true_and]
      exact List.all_eq_true.2 fun f hf => decide_eq_true (hgs f hf)

/-- Everything PROCESS can do: complete, where there is room, with the frames, events and registers of `parsed`; or fault,
where there is none. Provers cite this instead of unfolding the loop. -/
theorem execProcess_cases (buf : Bytes) (s : State) :
    (hasRoom s.params buf = false ∧ ∃ l, execProcess buf s = .fault (.capacityExceeded (markFault l)) ∧
      (l = s ∨ runLoop (buf.length + 1) (initReassembler buf s) = .full l)) ∨
    (hasRoom s.params buf = true ∧ ∃ t, execProcess buf s = .next (returnCursor t) ∧
      runLoop (buf.length + 1) (initReassembler buf s) = .stop t ∧
      t.emitted = s.emitted ++ framesOf buf ∧ t.rsmCursor = consumedOf buf ∧ t.rsmMode = (parsed buf).rsmMode ∧
      t.rsmPos = (parsed buf).rsmPos ∧ t.rsmAccum = (parsed buf).rsmAccum ∧
      t.portLog = s.portLog ++ (parsed buf).portLog) := by
  unfold execProcess
  cases ho : overCapacity s.params buf.length
  · rcases runLoop_room buf s ho with ⟨h, t, ht⟩ | ⟨h, t, ht, hrest⟩
    · exact .inl ⟨h, t, by simp [ht, Pass.outcome, raiseCapacity], .inr ht⟩
    · exact .inr ⟨h, t, by simp [ht, Pass.outcome], ht, hrest⟩
  · exact .inl ⟨by simp [hasRoom, ho], s, by simp [raiseCapacity], .inl rfl⟩

/-- A buffer no longer than the capacities has room, whatever its bytes are. -/
theorem hasRoom_of_length {p : Params} {buf : Bytes} (ho : overCapacity p buf.length = false)
    (hl : buf.length ≤ p.accumCap.getD buf.length) : hasRoom p buf = true := by
  rcases runLoop_room buf { State.reset with params := p } ho with ⟨-, t, ht⟩ | ⟨h, -⟩
  · obtain ⟨u, hu, -⟩ := runLoop_process buf { State.reset with params := p } hl
    rw [ht] at hu
    cases hu
  · exact h

/-- With the default capacities every buffer has room (R173). -/
theorem hasRoom_of_unbounded {p : Params} (h : Unbounded p) (buf : Bytes) : hasRoom p buf = true :=
  hasRoom_of_length (by simp [overCapacity, h.2.1, h.2.2]) (by simp [h.1])

end Sys2Proof.Machine
end

