-- ==== Sys2Proof/Machine/Assembler.lean ====
section
/-! DEFINITION. The assembler syntax of R92: one statement a line, read into the request it stands for. A program is the list
of its statements' requests, in order. Text is a list of characters (log entry 17). -/

namespace Sys2Proof.Machine

/-- The two host agents (R46); a statement of either may carry its prefix `S:` or `R:` (R92). No rule makes an operation's
effect depend on the agent (R219), so requests do not carry it. -/
inductive Agent where
  | sender
  | receiver
  deriving DecidableEq, Repr

/-- A statement: the agent whose prefix it carries, if any, and its request. -/
structure Statement where
  agent : Option Agent
  request : Request
  deriving DecidableEq, Repr

/-- A statement's text without its comment: `;` begins one (R92). -/
def dropComment : List Char → List Char
  | [] => []
  | c :: cs => if c = ';' then [] else c :: dropComment cs

/-- The words of a text, most recent character last: blanks and commas end a word, brackets are words of their own. -/
def splitWords : List Char → List Char → List (List Char)
  | [], [] => []
  | [], w :: ws => [w :: ws]
  | c :: cs, word =>
    if c = ' ' ∨ c = ',' then
      match word with
      | [] => splitWords cs []
      | w :: ws => (w :: ws) :: splitWords cs []
    else if c = '[' ∨ c = ']' then
      match word with
      | [] => [c] :: splitWords cs []
      | w :: ws => (w :: ws) :: [c] :: splitWords cs []
    else splitWords cs (word ++ [c])

/-- The value of a digit, decimal or hexadecimal. -/
def digitValue (c : Char) : Option Nat :=
  if '0'.toNat ≤ c.toNat ∧ c.toNat ≤ '9'.toNat then some (c.toNat - '0'.toNat)
  else if 'A'.toNat ≤ c.toNat ∧ c.toNat ≤ 'F'.toNat then some (c.toNat - 'A'.toNat + 10)
  else if 'a'.toNat ≤ c.toNat ∧ c.toNat ≤ 'f'.toNat then some (c.toNat - 'a'.toNat + 10)
  else none

/-- A number in a base, its first digits already read into `acc`. -/
def readDigits (base acc : Nat) : List Char → Option Nat
  | [] => some acc
  | c :: cs =>
    match digitValue c with
    | none => none
    | some d => if d < base then readDigits base (acc * base + d) cs else none

/-- A 32-bit value: `0x` and hexadecimal digits, or decimal digits (R89, R90, R92). -/
def readWord32 : List Char → Option (BitVec 32)
  | [] => none
  | ['0', 'x'] => none
  | '0' :: 'x' :: ds => (readDigits 16 0 ds).bind fun n => if n < 2 ^ 32 then some (BitVec.ofNat 32 n) else none
  | ds => (readDigits 10 0 ds).bind fun n => if n < 2 ^ 32 then some (BitVec.ofNat 32 n) else none

/-- A byte: a pair of hexadecimal digits (R92). -/
def readByte : List Char → Option Byte
  | [h, l] => (readDigits 16 0 [h, l]).map (BitVec.ofNat 8)
  | _ => none

/-- Hexadecimal byte pairs. -/
def readBytes : List (List Char) → Option Bytes
  | [] => some []
  | w :: ws =>
    match readByte w, readBytes ws with
    | some b, some bs => some (b :: bs)
    | _, _ => none

/-- A byte sequence: hexadecimal byte pairs between brackets (R92). -/
def readSequence (ws : List (List Char)) : Option Bytes :=
  if ws.head? = some ['['] ∧ ws.getLast? = some [']'] ∧ 2 ≤ ws.length then readBytes ws.tail.dropLast else none

/-- A mnemonic and its operand as the request they stand for: a core operation is the packet that issues it (R81), a
pseudo-operation the host's (R89-R91). RSM_RESET takes no operand; CKSUM16 and ENCODE take one 16-byte sequence, and another
length is the core's to refuse (R85). -/
def assembleRequest (lenBytes : Nat) (m : List Char) (ws : List (List Char)) : Option Request :=
  let packetFor (op : Byte) := (readSequence ws).map fun s => Request.packet (packetOf lenBytes op s)
  if m = "ESCAPE".toList then packetFor 0x01
  else if m = "UNESCAPE".toList then packetFor 0x02
  else if m = "CKSUM16".toList then packetFor 0x03
  else if m = "ENCODE".toList then packetFor 0x04
  else if m = "PROCESS".toList then packetFor 0x05
  else if m = "RSM_RESET".toList then
    match ws with
    | [] => some (.packet (packetOf lenBytes 0x06 []))
    | _ :: _ => none
  else if m = "RECV".toList then (readSequence ws).map .recv
  else if m = "ENCODE_CAN".toList then
    match ws with
    | [] => none
    | id :: data =>
      match readWord32 id, readBytes data with
      | some i, some d => some (.encodeCan i d)
      | _, _ => none
  else if m = "ENCODE_CTRL".toList then
    match ws with
    | [cmd] => (readWord32 cmd).map fun c => .encodeCtrl c none
    | [cmd, param] =>
      match readWord32 cmd, readWord32 param with
      | some c, some p => some (.encodeCtrl c (some p))
      | _, _ => none
    | _ => none
  else none

/-- One line of a program; `none` where it is no statement. -/
def assembleLine (lenBytes : Nat) (line : List Char) : Option Statement :=
  match splitWords (dropComment line) [] with
  | [] => none
  | w :: ws =>
    if w = "S:".toList then
      ws.head?.bind fun m => (assembleRequest lenBytes m ws.tail).map fun r => ⟨some .sender, r⟩
    else if w = "R:".toList then
      ws.head?.bind fun m => (assembleRequest lenBytes m ws.tail).map fun r => ⟨some .receiver, r⟩
    else (assembleRequest lenBytes w ws).map fun r => ⟨none, r⟩

/-- A program's requests, in the order of its statements; a line of blanks or a comment alone has none, and the answer is
`none` where a line is neither that nor a statement (R92). -/
def assembleProgram (lenBytes : Nat) : List (List Char) → Option (List Request)
  | [] => some []
  | l :: ls =>
    if splitWords (dropComment l) [] = [] then assembleProgram lenBytes ls
    else match assembleLine lenBytes l, assembleProgram lenBytes ls with
    | some st, some rs => some (st.request :: rs)
    | _, _ => none

end Sys2Proof.Machine
end

