-- ==== Sys2Proof/Tests/Slice0.lean ====
section
/-! SUPPORT. The model's own tests. Expected values are the spec's: the worked examples and vectors of 95_test_vectors.md
(named in each comment), the words of 30_encoding.md, and hand calculation from the rules where no vector stands. Then, for
each obligation with hypotheses, a witness that meets them. -/

namespace Sys2Proof.Machine.Tests

/-! ### Helpers -/

/-- The next state of an outcome. -/
def next? : Host.Outcome State Fault Refusal → Option State
  | .next t => some t
  | .fault _ => none
  | .refused _ => none

/-- The state a fault leaves. -/
def left? : Host.Outcome State Fault Refusal → Option State
  | .next _ => none
  | .fault (.capacityExceeded l) => some l
  | .refused _ => none

/-- The reason of a refusal. -/
def refusal? : Host.Outcome State Fault Refusal → Option Refusal
  | .next _ => none
  | .fault _ => none
  | .refused r => some r

/-- The reset machine with requests waiting. -/
def asked (rs : List Request) : State := { State.reset with inbox := rs }

/-- The reset machine inside an operation. -/
def inside (op : Op) : State := { State.reset with op := op }

/-- The machine inside PROCESS, at a frame boundary at the start of `buf`. -/
def awaiting (buf : Bytes) : State := { State.reset with op := .process, buf := buf }

/-- The machine inside PROCESS, just past the HEAD HEAD of a frame whose bytes are `buf`. -/
def inFrame (buf : Bytes) : State :=
  { State.reset with op := .process, rsmMode := .accumulatingPayload, rsmPos := 2, buf := 0xAA :: 0xAA :: buf }

/-- The bytes of the last thing the core put out. -/
def lastOut (s : State) : Option Bytes := s.portLog.getLast?.map PortEvent.wire

/-- P0, the payload of §8's receive example. -/
def p0 : Bytes := [0x11, 0x22, 0x33, 0x44, 0x07, 0x00, 0x11, 0x22, 0x33, 0x44, 0x55, 0x66, 0x08, 0x00, 0x00, 0x00]

/-- f0, the raw frame of §8's receive example. -/
def f0 : Bytes :=
  [0x11, 0x22, 0x33, 0x44, 0x07, 0x00, 0x11, 0x22, 0x33, 0x44, 0xA5, 0x55, 0x66, 0x08, 0x00, 0x00, 0x00, 0x1E]

/-- W0, the wire frame of §8's receive example. -/
def w0 : Bytes := [0xAA, 0xAA] ++ f0 ++ [0x55, 0x55]

/-- V-FLT-3's buffer: a frame of two bytes and one byte more. -/
def fitting : Bytes := [0xAA, 0xAA, 0x01, 0x02, 0x55, 0x55, 0x00]

/-- A payload of fifteen zeros and one byte. -/
def zerosThen (b : Byte) : Bytes := List.replicate 15 0x00 ++ [b]

/-! ### WellFormed refuses what no encoding can write -/

theorem test_wf_refuses_overlong : WellFormed 0 (.escape [0x01]) = false ∧ WellFormed 0 (.unescape [0x01]) = false ∧
    WellFormed 0 (.process [0x01]) = false ∧ WellFormed 0 (.cksum16 (zerosThen 0)) = false ∧
    WellFormed 0 (.encode (zerosThen 0)) = false := by decide
theorem test_wf_refuses_wrong_length : WellFormed 4 (.cksum16 (List.replicate 15 0)) = false ∧
    WellFormed 4 (.encode (List.replicate 17 0)) = false ∧ WellFormed 4 (.rsmReset [0x00]) = false := by decide
theorem test_wf_refuses_reserved_literal : WellFormed 4 (.escLit 0xA5) = false ∧ WellFormed 4 (.escLit 0xAA) = false ∧
    WellFormed 4 (.escLit 0x55) = false ∧ WellFormed 4 (.unescKeep 0xA5) = false := by decide
theorem test_wf_refuses_earlier_row : WellFormed 4 (.rsmAwDesync 0xAA 0xAA) = false ∧
    WellFormed 4 (.rsmAcAppend 0x55 0x55) = false := by decide
theorem test_wf_accepts : WellFormed 4 (.cksum16 p0) = true ∧ WellFormed 4 (.process []) = true ∧
    WellFormed 4 (.escLit 0xA6) = true ∧ WellFormed 4 (.rsmAwDesync 0xAA 0x55) = true := by decide

/-! ### Decoding words written out from the spec (R80, R81, R87, R88) -/

theorem test_decode_escape :
    decode 4 (.packet [0x01, 0x03, 0x00, 0x00, 0x00, 0x11, 0x55, 0x22]) = .ok (.escape [0x11, 0x55, 0x22]) := by decide
theorem test_decode_unescape : decode 4 (.packet [0x02, 0x02, 0x00, 0x00, 0x00, 0xA5, 0x11]) = .ok (.unescape [0xA5, 0x11]) := by
  decide
/-- Program 1's first packet. -/
theorem test_decode_cksum16 : decode 4 (.packet ([0x03, 0x10, 0x00, 0x00, 0x00] ++ p0)) = .ok (.cksum16 p0) := by decide
/-- Program 1's third packet, with P0. -/
theorem test_decode_encode : decode 4 (.packet ([0x04, 0x10, 0x00, 0x00, 0x00] ++ p0)) = .ok (.encode p0) := by decide
/-- Program 2's first PROCESS packet. -/
theorem test_decode_process : decode 4 (.packet [0x05, 0x07, 0x00, 0x00, 0x00, 0xAA, 0xAA, 0x11, 0x22, 0x33, 0x44, 0x07]) =
    .ok (.process [0xAA, 0xAA, 0x11, 0x22, 0x33, 0x44, 0x07]) := by decide
/-- Program 2's RSM_RESET packet. -/
theorem test_decode_rsmReset : decode 4 (.packet [0x06, 0x00, 0x00, 0x00, 0x00]) = .ok (.rsmReset []) := by decide
/-- LEN's second byte counts 256s: a packet of 256 operand bytes has LEN 00 01 00 00. -/
theorem test_decode_len_little_endian : decode 4 (.packet ([0x05, 0x00, 0x01, 0x00, 0x00] ++ List.replicate 256 0x00)) =
    .ok (.process (List.replicate 256 0x00)) := by decide +kernel
/-- The opcode table's esc-byte patterns 10100101, 10101010, 01010101, and their neighbours. -/
theorem test_decode_escBytes : decode 4 (.escByte 0b10100101) = .ok .escPairA5 ∧ decode 4 (.escByte 0b10101010) = .ok .escPairAA ∧
    decode 4 (.escByte 0b01010101) = .ok .escPair55 ∧ decode 4 (.escByte 0xA6) = .ok (.escLit 0xA6) := by decide
theorem test_decode_unescBytes : decode 4 (.unescByte 0b10100101) = .ok .unescDrop ∧
    decode 4 (.unescByte 0xAA) = .ok (.unescKeep 0xAA) := by decide
theorem test_decode_ckByte : decode 4 (.ckByte 0xA5) = .ok (.ckStep 0xA5) := by decide
/-- The step-key table of 95_test_vectors.md. -/
theorem test_decode_stepKeys : decode 4 (.stepKey 0x00000) = .ok (.rsmEnd .awaitingFrameStart) ∧
    decode 4 (.stepKey 0x10000) = .ok (.rsmEnd .accumulatingPayload) ∧
    decode 4 (.stepKey 0x2AA00) = .ok (.rsmAwShort 0xAA) ∧ decode 4 (.stepKey 0x4AAAA) = .ok .rsmAwHead ∧
    decode 4 (.stepKey 0x4AA55) = .ok (.rsmAwDesync 0xAA 0x55) ∧ decode 4 (.stepKey 0x35500) = .ok (.rsmAcLast 0x55) ∧
    decode 4 (.stepKey 0x55555) = .ok .rsmAcTail ∧ decode 4 (.stepKey 0x55501) = .ok (.rsmAcAppend 0x55 0x01) ∧
    decode 4 (.stepKey 0x50155) = .ok (.rsmAcAppend 0x01 0x55) := by decide
/-- AVAIL = 0b11 "is never formed" (R88). -/
theorem test_decode_refuses : decode 4 (.stepKey 0x60000) = .error .keyNeverFormed ∧
    decode 4 (.packet []) = .error .malformedPacket ∧
    decode 4 (.packet [0x01, 0x03, 0x00, 0x00, 0x00, 0x11]) = .error .malformedPacket ∧
    decode 4 (.packet [0x06, 0x00]) = .error .malformedPacket ∧
    decode 4 (.packet [0x07, 0x00, 0x00, 0x00, 0x00]) = .error .badSelector := by decide
theorem test_encode_stepKeys : encode 4 .rsmAwHead = .stepKey 0x4AAAA ∧ encode 4 .rsmAcTail = .stepKey 0x55555 ∧
    encode 4 (.rsmAcAppend 0x01 0x55) = .stepKey 0x50155 ∧ encode 4 (.rsmAcLast 0x55) = .stepKey 0x35500 := by decide
theorem test_tableWords : decodeTableWord 8 0x05 = some (.process []) ∧ decodeTableWord 8 0xAA = some .escPairAA ∧
    decodeTableWord 24 0x55555 = some .rsmAcTail ∧ decodeTableWord 24 0x40000 = some (.rsmAwDesync 0x00 0x00) := by decide

/-! ### Escape Codec -/

/-- V-ESC-3, V-ESC-7, V-ESC-9, V-ESC-10. -/
theorem test_escape : escape [0x11, 0x55, 0x22] = [0x11, 0xA5, 0x55, 0x22] ∧
    escape [0xA5, 0xAA, 0x55] = [0xA5, 0xA5, 0xA5, 0xAA, 0xA5, 0x55] ∧ escape [0x55, 0x55] = [0xA5, 0x55, 0xA5, 0x55] ∧
    escape [0x00, 0xFF, 0xA4, 0xA6, 0xAB, 0x54, 0x56] = [0x00, 0xFF, 0xA4, 0xA6, 0xAB, 0x54, 0x56] := by decide
/-- The response of ESCAPE [11 55 22]: RLEN 4, then the bytes (R82, V-ESC-3). -/
theorem test_exec_escape : (next? (exec (.escape [0x11, 0x55, 0x22]) State.reset)).bind lastOut =
    some [0x04, 0x00, 0x00, 0x00, 0x11, 0xA5, 0x55, 0x22] := by decide
/-- V-UNE-3, V-UNE-6, V-UNE-7, V-UNE-9. -/
theorem test_unescape : unescape [0xA5, 0xA5] = [] ∧ unescape [0x11, 0xA5, 0x55, 0xA5, 0xA5, 0x22] = [0x11, 0x55, 0x22] ∧
    unescape [0xA5, 0x11] = [0x11] ∧ unescape [0xA5, 0xA5, 0xA5] = [] := by decide
theorem test_exec_unescape : (next? (exec (.unescape [0xAA, 0x55, 0xA5]) State.reset)).bind lastOut =
    some [0x02, 0x00, 0x00, 0x00, 0xAA, 0x55] := by decide
theorem test_step_escPairs : (next? (step (inside (.escape [0xA5, 0x11] [0x22])))).map State.op =
      some (.escape [0x11] [0x22, 0xA5, 0xA5]) ∧
    (next? (step (inside (.escape [0xAA] [])))).map State.op = some (.escape [] [0xA5, 0xAA]) ∧
    (next? (step (inside (.encodeEsc [0x55] [])))).map State.op = some (.encodeEsc [] [0xA5, 0x55]) := by decide
theorem test_step_escLit : (next? (step (inside (.escape [0x54, 0xA5] [])))).map State.op = some (.escape [0xA5] [0x54]) := by
  decide
theorem test_step_unescape : (next? (step (inside (.unescape [0xA5, 0xA5] [0x01])))).map State.op =
      some (.unescape [0xA5] [0x01]) ∧
    (next? (step (inside (.unescape [0x55] [0x01])))).map State.op = some (.unescape [] [0x01, 0x55]) := by decide

/-! ### Checksum Unit and Frame Encoder -/

/-- V-CK-2, V-CK-4 (by V-CK-5's permutation), V-CK-6, V-CK-7. -/
theorem test_checksum : checksum (List.replicate 16 0xFF) = 0xF0 ∧ checksum p0 = 0x1E ∧
    checksum ([0x80, 0x80] ++ List.replicate 14 0x00) = 0x00 ∧ checksum (zerosThen 0x55) = 0x55 := by decide
/-- Program 1: the response 01 00 00 00 1E; CK.ACC = 1E whatever it held. -/
theorem test_exec_cksum16 : (next? (exec (.cksum16 p0) { State.reset with ckAcc := 0xFF })).map State.ckAcc = some 0x1E ∧
    (next? (exec (.cksum16 p0) State.reset)).bind lastOut = some [0x01, 0x00, 0x00, 0x00, 0x1E] := by decide
/-- R121: the carry out is discarded. -/
theorem test_step_ckStep : (next? (step { inside (.cksum [0xFF]) with ckAcc := 0x02 })).map State.ckAcc = some 0x01 := by decide
/-- V-ENC-2, with P0. -/
theorem test_exec_encode : (next? (exec (.encode p0) State.reset)).bind lastOut = some ([0x16, 0x00, 0x00, 0x00] ++ w0) ∧
    (next? (exec (.encode p0) State.reset)).map State.ckAcc = some 0x1E := by decide
/-- V-ENC-10: type 55 and checksum 55. -/
theorem test_wireFrame_checksum55 :
    wireFrame (zerosThen 0x55) = [0xAA, 0xAA] ++ List.replicate 15 0x00 ++ [0xA5, 0x55, 0x55, 0x55, 0x55] := by decide
/-- V-ENC-9: ENCODE_CTRL 0x12345678, 500000. -/
theorem test_encodeCtrl : (ctrlPayload 0x12345678 (some 500000)).bytes =
    [0x78, 0x56, 0x34, 0x12, 0x20, 0xA1, 0x07, 0x00, 0x00, 0x00, 0x00, 0x00, 0x04, 0xFF, 0x01, 0x01] := by decide
/-- L1-2: ENCODE_CAN 0x11223344, 07 00 11 22 33 44 55 66. -/
theorem test_encodeCan : (canPayload 0x11223344 [0x07, 0x00, 0x11, 0x22, 0x33, 0x44, 0x55, 0x66]).bytes =
    [0x44, 0x33, 0x22, 0x11, 0x07, 0x00, 0x11, 0x22, 0x33, 0x44, 0x55, 0x66, 0x08, 0x00, 0x00, 0x00] := by decide

/-! ### Stream Reassembler -/

/-- V-RSM-5: one call's frames, count, mode and position. -/
theorem test_process_frame_then_short :
    (next? (exec (.process [0xAA, 0xAA, 0x01, 0x02, 0x55, 0x55, 0xAA]) State.reset)).map
      (fun t => (t.emitted, t.rsmCursor, t.rsmMode, t.rsmPos)) =
    some ([[0x01, 0x02]], 6, .awaitingFrameStart, 6) := by decide
/-- V-RSM-6, V-RSM-16, V-RSM-8, V-RSM-9, V-RSM-4: no skip, no resync, HEAD inside a frame, the first pair, the empty frame. -/
theorem test_process_frames : framesOf [0x00, 0xAA, 0xAA, 0x01, 0x55, 0x55] = [] ∧
    framesOf [0xAA, 0xAA, 0x01, 0x55, 0x55, 0x00, 0xAA, 0xAA, 0x02, 0x55, 0x55] = [[0x01]] ∧
    framesOf [0xAA, 0xAA, 0xAA, 0xAA, 0x55, 0x55] = [[0xAA, 0xAA]] ∧
    framesOf [0xAA, 0xAA, 0xA5, 0x55, 0x55, 0x55] = [[0xA5]] ∧ framesOf [0xAA, 0xAA, 0x55, 0x55] = [[]] := by decide
/-- V-RSM-7: the lone last byte is appended (D3). -/
theorem test_process_last_byte : (next? (exec (.process [0xAA, 0xAA, 0x01, 0x55]) State.reset)).map
      (fun t => (t.rsmAccum, t.rsmPos, t.rsmCursor, t.rsmMode)) =
    some ([0x01, 0x55], 4, 0, .accumulatingPayload) := by decide
/-- V-RSM-18, V-RSM-19, V-RSM-20: W0 whole; a checksum of 55 truncates. -/
theorem test_process_wireFrames : framesOf w0 = [f0] ∧ consumedOf w0 = 22 ∧
    consumedOf (wireFrame [0, 0, 0, 0, 0x4D, 0, 0, 0, 0, 0, 0, 0, 0x08, 0, 0, 0]) = 20 ∧
    framesOf (wireFrame (zerosThen 0x55)) = [List.replicate 15 0x00 ++ [0xA5]] ∧
    consumedOf (wireFrame (zerosThen 0x55)) = 20 := by decide
/-- V-FLT-1: BUF_CAP = 4 and five bytes: nothing but the mark changes. -/
theorem test_process_bufCap : left? (exec (.process [0xAA, 0xAA, 0x01, 0x55, 0x55])
      { State.reset with params := { Params.default with bufCap := some 4 } }) =
    some { State.reset with params := { Params.default with bufCap := some 4 }, faultMark := true } := by decide
/-- V-FLT-2: ACCUM_CAP = 2: the third AccAppend faults, and leaves the state before it. -/
theorem test_process_accumCap : (left? (exec (.process [0xAA, 0xAA, 0x01, 0x02, 0x03, 0x55, 0x55])
      { State.reset with params := { Params.default with accumCap := some 2 } })).map
      (fun l => (l.rsmMode, l.rsmAccum, l.rsmPos, l.emitted, l.faultMark)) =
    some (.accumulatingPayload, [0x01, 0x02], 4, [], true) := by decide
theorem test_step_awaiting : (next? (step (awaiting [0xAA, 0xAA, 0x01]))).map (fun t => (t.rsmPos, t.rsmMode)) =
      some (2, .accumulatingPayload) ∧
    (next? (step (awaiting [0xAA, 0x55]))).map (fun t => (t.op, t.rsmPos)) = some (.processDone, 0) ∧
    (next? (step (awaiting [0xAA]))).map (fun t => (t.op, t.rsmPos)) = some (.processDone, 0) := by decide
theorem test_step_inFrame : (next? (step (inFrame [0x55, 0x01]))).map (fun t => (t.rsmAccum, t.rsmPos)) = some ([0x55], 3) ∧
    (next? (step (inFrame [0x55]))).map (fun t => (t.rsmAccum, t.rsmPos)) = some ([0x55], 3) ∧
    (next? (step (inFrame [0x55, 0x55]))).map (fun t => (t.emitted, t.rsmPos, t.rsmCursor, t.rsmMode)) =
      some ([[]], 4, 4, .awaitingFrameStart) := by decide
theorem test_step_end : (next? (step (inFrame []))).map State.op = some .processDone ∧
    (next? (step { inFrame [] with op := .processDone, rsmCursor := 0x16 })).bind lastOut =
      some [0x04, 0x00, 0x00, 0x00, 0x16, 0x00, 0x00, 0x00] := by decide

/-! ### RSM_RESET, refusals, the host -/

/-- V-RST-1: EMITTED unchanged, an empty response. -/
theorem test_exec_rsmReset : (next? (exec (.rsmReset [])
      { State.reset with rsmMode := .accumulatingPayload, rsmAccum := [0x01, 0x02], rsmPos := 4, emitted := [[0x07]] })) =
    some { State.reset with emitted := [[0x07]], portLog := [.response 0 []] } := by decide
/-- V-REF-1, V-REF-2, V-REF-3, V-REF-5, V-REF-6. -/
theorem test_refusals : refusal? (step (asked [.packet [0x00, 0, 0, 0, 0]])) = some .badSelector ∧
    refusal? (step (asked [.packet [0x07, 0, 0, 0, 0]])) = some .badSelector ∧
    refusal? (step (asked [.packet ([0x03, 0x0F, 0, 0, 0] ++ List.replicate 15 0)])) = some .badLength ∧
    refusal? (step (asked [.packet [0x06, 0x01, 0, 0, 0, 0]])) = some .badLength ∧
    refusal? (step (asked [.encodeCan 1 [1, 2, 3, 4, 5, 6, 7]])) = some .badOperand := by decide
/-- V-RSM-MULTI, its first two iterations. -/
theorem test_recv : (next? (step (asked [.recv [0xAA]]))).map State.hostRetained = some [0xAA] ∧
    (next? (step { asked [.recv [0x55, 0xAA]] with hostRetained := [0xAA, 0xAA, 0x01, 0x55] })).map
      (fun t => (t.emitted, t.hostRetained)) = some ([[0x01]], [0xAA]) := by decide
theorem test_fetchWord_runs : (next? (step (State.reset.withFetchWord 24 0x4AAAA))).map (fun t => (t.rsmPos, t.rsmMode)) =
      some (2, .accumulatingPayload) ∧
    (next? (step (State.reset.withFetchWord 8 0xA5))).map State.op = some (.escape [] [0xA5, 0xA5]) ∧
    (next? (step (State.reset.withFetchWord 8 0x05))).bind lastOut = some [4, 0, 0, 0, 0, 0, 0, 0] := by decide

/-- Statements of Programs 1 to 3 as R92 writes them. -/
theorem test_assemble : assembleLine 4 "S: ESCAPE [11 55 22] ; -> 11 A5 55 22".toList =
      some ⟨some .sender, .packet [0x01, 0x03, 0, 0, 0, 0x11, 0x55, 0x22]⟩ ∧
    assembleLine 4 "R: RSM_RESET".toList = some ⟨some .receiver, .packet [0x06, 0, 0, 0, 0]⟩ ∧
    assembleLine 4 "RECV []".toList = some ⟨none, .recv []⟩ ∧
    assembleLine 4 "S: ENCODE_CAN 0x00000000, 4D 00 00 00 00 00 00 00".toList =
      some ⟨some .sender, .encodeCan 0 [0x4D, 0, 0, 0, 0, 0, 0, 0]⟩ ∧
    assembleLine 4 "ENCODE_CTRL 0x12345678, 500000".toList = some ⟨none, .encodeCtrl 0x12345678 (some 500000)⟩ := by
  decide +kernel

/-! ### Witnesses: for each obligation with hypotheses, a concrete case that meets them together -/

theorem witness_DecodeEncodeRoundTrip : WellFormed 4 (.process w0) = true ∧ WellFormed 1 (.rsmAcAppend 0x55 0x54) = true := by decide
theorem witness_PacketHasOneReading : decode 4 (.packet [0x05, 0x01, 0, 0, 0, 0xAA]) = .ok (.process [0xAA]) := by decide
theorem witness_StepRunsTheDecodedInstruction :
    (Ready (asked [.packet [0x05, 0x01, 0, 0, 0, 0xAA]]) ∧
      decode (asked []).params.lenBytes (.packet [0x05, 0x01, 0, 0, 0, 0xAA]) = .ok (.process [0xAA])) ∧
    ((awaiting [0xAA]).faultMark = false ∧ (awaiting [0xAA]).op ≠ .idle ∧
      nextRow (awaiting [0xAA]) = some (.rsmAwShort 0xAA)) := by decide
theorem witness_ReservedSelectorIsRefused : Ready (asked [.packet [0x07]]) ∧ 0x07 ≤ (0x07 : Byte).toNat ∧
    0x07 ≤ (0xFF : Byte).toNat := by decide
theorem witness_OperandLengthIsChecked : Ready (asked [.packet (packetOf 4 0x03 (zerosThen 0).tail)]) ∧
    fitsLen 4 (zerosThen 0).tail.length = true ∧ (zerosThen 0).tail.length ≠ 16 ∧ (0 :: zerosThen 0).length ≠ 16 ∧
    [(0x00 : Byte)].length ≠ 0 ∧ 0 < [(0xAA : Byte)].length := by decide
/-- The empty packet; `06 00`, too short for LEN; RSM_RESET with one byte more than its LEN of 0. -/
theorem witness_MisframedPacketIsRefused : Ready (asked [.packet []]) ∧ Ready (asked [.packet [0x06, 0x00]]) ∧
    0x01 ≤ (0x06 : Byte).toNat ∧ (0x06 : Byte).toNat ≤ 0x06 ∧
    [(0 : Byte)].length ≠ 4 + leNat ([(0 : Byte)].take 4) ∧
    [(0 : Byte), 0, 0, 0, 0].length ≠ 4 + leNat ([(0 : Byte), 0, 0, 0, 0].take 4) := by decide
theorem witness_WellFormedCommandCompletes : Ready (asked [.packet [0x05, 0x01, 0, 0, 0, 0xAA]]) ∧
    Unbounded (asked []).params ∧ WellFormed (asked []).params.lenBytes (.process [0xAA]) = true := by decide
theorem witness_IdleCoreWaits : Ready State.reset ∧ State.reset.inbox = [] := by decide
theorem witness_EscapeByteCasesContribute : (inside (.escape [0xA5] [])).op = .escape [0xA5] [] ∧
    (0xA4 : Byte) ≠ 0xA5 ∧ (0xA4 : Byte) ≠ 0xAA ∧ (0xA4 : Byte) ≠ 0x55 ∧
    (inside (.encodeEsc [0xA4] [])).op = .encodeEsc [0xA4] [] := by decide
theorem witness_UnescapeByteCasesContribute : (inside (.unescape [0xA5] [])).op = .unescape [0xA5] [] ∧
    (0xA6 : Byte) ≠ 0xA5 ∧ (inside (.unescape [0xA6] [])).op = .unescape [0xA6] [] := by decide
theorem witness_sixteen_bytes : p0.length = 16 := by decide
theorem witness_CkStepAddsTheByte : (inside (.cksum [0xFF])).op = .cksum [0xFF] ∧
    (inside (.encodeSum p0 [0xFF])).op = .encodeSum p0 [0xFF] := by decide
theorem witness_AwaitingSteps_head : let s := awaiting [0xAA, 0xAA]
    s.op = .process ∧ s.rsmMode = .awaitingFrameStart ∧ s.buf[s.rsmPos]? = some 0xAA ∧
    s.buf[s.rsmPos + 1]? = some 0xAA := by decide
theorem witness_AwaitingSteps_short : let s := awaiting [0xAA]
    s.op = .process ∧ s.rsmMode = .awaitingFrameStart ∧ s.rsmPos + 1 = s.buf.length ∧ s.buf[s.rsmPos]? = some 0xAA := by decide
theorem witness_AwaitingSteps_desync : let s := awaiting [0xAA, 0xAB]
    s.op = .process ∧ s.rsmMode = .awaitingFrameStart ∧ s.buf[s.rsmPos]? = some 0xAA ∧
    s.buf[s.rsmPos + 1]? = some 0xAB ∧ ¬ ((0xAA : Byte) = 0xAA ∧ (0xAB : Byte) = 0xAA) := by decide
theorem witness_AccumulatingSteps_tail : let s := inFrame [0x55, 0x55]
    s.op = .process ∧ s.rsmMode = .accumulatingPayload ∧ s.buf[s.rsmPos]? = some 0x55 ∧
    s.buf[s.rsmPos + 1]? = some 0x55 := by decide
theorem witness_AccumulatingSteps_append : let s := inFrame [0x55, 0xAA]
    s.op = .process ∧ s.rsmMode = .accumulatingPayload ∧ s.buf[s.rsmPos]? = some 0x55 ∧
    s.buf[s.rsmPos + 1]? = some 0xAA ∧ ¬ ((0x55 : Byte) = 0x55 ∧ (0xAA : Byte) = 0x55) ∧ s.params.accumCap = none := by decide
/-- At the boundary of ACCUM_CAP: one byte of room, and none. -/
theorem witness_AccumulatingSteps_last :
    let s := { inFrame [0x55] with params := { Params.default with accumCap := some 1 } }
    s.op = .process ∧ s.rsmMode = .accumulatingPayload ∧ s.rsmPos + 1 = s.buf.length ∧ s.buf[s.rsmPos]? = some 0x55 ∧
    s.params.accumCap = some 1 ∧ s.rsmAccum.length < 1 := by decide
theorem witness_EndStepStops : (inFrame []).op = .process ∧ (inFrame []).rsmPos = (inFrame []).buf.length ∧
    (awaiting []).op = .process ∧ (awaiting []).rsmPos = (awaiting []).buf.length := by decide
theorem witness_FullAccumulatorFaults_append :
    let s := { inFrame [0x01, 0x55] with params := { Params.default with accumCap := some 0 } }
    s.op = .process ∧ s.rsmMode = .accumulatingPayload ∧ s.params.accumCap = some 0 ∧ s.rsmAccum.length = 0 ∧
    s.buf[s.rsmPos]? = some 0x01 ∧ s.buf[s.rsmPos + 1]? = some 0x55 ∧ ¬ ((0x01 : Byte) = 0x55 ∧ (0x55 : Byte) = 0x55) := by decide
theorem witness_FullAccumulatorFaults_last :
    let s := { inFrame [0x01] with params := { Params.default with accumCap := some 0 } }
    s.op = .process ∧ s.rsmMode = .accumulatingPayload ∧ s.params.accumCap = some 0 ∧ s.rsmAccum.length = 0 ∧
    s.rsmPos + 1 = s.buf.length ∧ s.buf[s.rsmPos]? = some 0x01 := by decide
theorem witness_UnselectedRowIsRefused : isCommand .rsmAwHead = false ∧ nextRow State.reset ≠ some .rsmAwHead := by decide
/-- V-FLT-3 (95_test_vectors.md): ACCUM_CAP = 2, seven bytes, a frame of exactly two; and the same buffer with one byte of
capacity less (R173). -/
theorem witness_ProcessCompletes : hasRoom Params.default w0 = true ∧
    hasRoom { Params.default with accumCap := some 2, bufCap := some 7, cntWidth := some 3 } fitting = true ∧
    hasRoom { Params.default with accumCap := some 1 } fitting = false := by decide
/-- V-FLT-3: no fault, `[01 02]` emitted, the count 6. -/
theorem test_process_longer_than_accumCap : (next? (exec (.process fitting)
    { State.reset with params := { Params.default with accumCap := some 2 } })).map
    (fun t => (t.emitted, t.rsmCursor, t.rsmPos)) = some ([[0x01, 0x02]], 6, 6) := by decide
theorem witness_ProcessDependsOnlyOnTheBuffer : (next? (exec (.process w0) State.reset)).isSome = true ∧
    (next? (exec (.process w0) (inFrame [0x01]))).isSome = true := by decide
theorem witness_ProcessLoopTerminates : ∃ t, loopPass (inFrame [0x01]) = .go t := ⟨_, rfl⟩
theorem witness_FramedStreamIsParsed : TailFree [0x01, 0x55, 0x02] := by unfold TailFree; decide
theorem witness_EncodedFrameIsRecovered : checksum p0 ≠ 0x55 := by decide
theorem witness_Checksum55TruncatesTheFrame :
    (checksum [0x4D, 0x08] = 0x55 ∧ (escape [0x4D, 0x08]).getLast? ≠ some 0x55) ∧
    (checksum (zerosThen 0x55) = 0x55 ∧ (escape (zerosThen 0x55)).getLast? = some 0x55) := by decide
theorem witness_StepKeepsTheInvariant : Inv (inFrame [0x01]) ∧ (next? (step (inFrame [0x01]))).isSome = true ∧
    (left? (step { State.reset with faultMark := true })).isSome = true ∧ Inv { State.reset with faultMark := true } := by decide
theorem witness_StepOnlyAppendsToTheOutputs : (next? (step (inFrame [0x55, 0x55]))).isSome = true := by decide
theorem witness_UnboundedRunsNeverFault : Unbounded (asked [.recv w0]).params ∧ (asked [.recv w0]).faultMark = false := by decide
/-- 2^2 bytes are too many for a CNT_WIDTH of 2, five are for a BUF_CAP of 4. -/
theorem witness_LongOperandFaults : 4 < [(0xAA : Byte), 0xAA, 0x01, 0x55, 0x55].length ∧
    2 ^ 2 ≤ [(0xAA : Byte), 0xAA, 0x55, 0x55].length := by decide
/-- A frame closed before the failing AccAppend, and an operand beyond BUF_CAP. -/
theorem witness_FaultKeepsEmittedFrames :
    (left? (exec (.process [0xAA, 0xAA, 0x55, 0x55, 0xAA, 0xAA, 0x01])
      { State.reset with params := { Params.default with accumCap := some 0 } })).map State.emitted = some [[]] ∧
    hasRoom { Params.default with accumCap := some 0 } [0xAA, 0xAA, 0x55, 0x55, 0xAA, 0xAA, 0x01] = false ∧
    overCapacity { Params.default with bufCap := some 4 } [(0xAA : Byte), 0xAA, 0x01, 0x55, 0x55].length = true := by decide
theorem witness_RoomyAccumulatorNeverFaults :
    let p : Params := { Params.default with accumCap := some 22, bufCap := some 22 }
    p.accumCap = some 22 ∧ p.bufCap = some 22 ∧ overCapacity p w0.length = false := by decide
theorem witness_FaultIsSticky : ({ State.reset with faultMark := true } : State).faultMark = true := by decide
theorem witness_StepwiseRun_next : Ready State.reset ∧
    (next? (step (asked [.packet [0x05, 0x02, 0, 0, 0, 0xAA, 0xAA]]))).isSome = true := by decide
theorem witness_StepwiseRun_fault : (left? (step { asked [.packet [0x05, 0x03, 0, 0, 0, 0xAA, 0xAA, 0x01]] with
    params := { Params.default with accumCap := some 0 } })).isSome = true := by decide
theorem witness_StepwiseRun_refused : refusal? (step (asked [.packet [0x03, 0, 0, 0, 0]])) = some .badLength := by decide
theorem witness_ReceiveIteration : Ready (asked [.recv w0]) ∧
    hasRoom (asked []).params ((asked []).hostRetained ++ w0) = true := by decide
theorem witness_ChunkBoundariesDoNotMatter : let s := asked ([[0xAA], [0xAA, 0x01, 0x55], [0x55]].map .recv)
    Ready s ∧ Unbounded s.params ∧ s.hostRetained = [] := by decide
theorem witness_DesyncIsPermanent : let s := { asked ([[0xAA], w0].map .recv) with hostRetained := [0xAA, 0x55] }
    Ready s ∧ Unbounded s.params ∧ s.hostRetained = 0xAA :: 0x55 :: [] ∧ ¬ ((0xAA : Byte) = 0xAA ∧ (0x55 : Byte) = 0xAA) := by
  decide
theorem witness_EmptyChunkEmitsNothing : let s := { asked [.recv []] with hostRetained := [0xAA, 0xAA, 0x01] }
    Ready s ∧ Unbounded s.params ∧ (framesOf s.hostRetained = [] ∧ consumedOf s.hostRetained = 0) ∧
    (next? (step s)).isSome = true := by decide
theorem witness_OpenAndCloseDiscard : Ready (asked [.closeConn]) ∧ Ready (asked [.openConn true]) ∧
    Ready (asked [.openConn false]) := by decide
theorem witness_EncodeCanExpands : Ready (asked [.encodeCan 1 [1, 2, 3, 4, 5, 6, 7, 8]]) ∧
    [(1 : Byte), 2, 3, 4, 5, 6, 7, 8].length = 8 ∧ [(1 : Byte), 2, 3, 4, 5, 6, 7].length ≠ 8 := by decide
theorem witness_EncodeCtrlExpands : Ready (asked [.encodeCtrl 1 none]) := by decide
theorem witness_WritesTouchOnlyTheTransmitStream : Ready (asked [.write w0 true]) ∧ Ready (asked [.write w0 false]) := by decide
theorem witness_SenderAndReceiverCommute : p0.length = 16 ∧ hasRoom Params.default w0 = true := by decide
theorem witness_StallOutlivesEveryStep : let s := { asked [.recv [0xAA]] with hostRetained := [0xAA, 0x55] }
    (s.hostRetained = 0xAA :: 0x55 :: [] ∧ ¬ ((0xAA : Byte) = 0xAA ∧ (0x55 : Byte) = 0xAA)) ∧ Ready s ∧
    (next? (step s)).map State.hostRetained = some [0xAA, 0x55, 0xAA] := by decide
theorem witness_UnboundedStepsNeverFault : Unbounded (inFrame [0x01]).params ∧ (inFrame [0x01]).faultMark = false ∧
    (next? (step (inFrame [0x01]))).isSome = true := by decide
theorem witness_PortEventsCarryTheirLength : w0.length < 2 ^ 32 := by decide

end Sys2Proof.Machine.Tests
end

section
/-! PROOFS. What a step does in each kind of state, and the row or packet it executes (R47, R81, R87, R88). -/

namespace Sys2Proof.Machine

/-- An idle, unfaulted core takes its oldest request off the queue and serves it (R47). -/
theorem step_of_ready_cons {s : State} {r : Request} {rest : List Request} (hs : Ready s) (hq : s.inbox = r :: rest) :
    step s = serve r { s with inbox := rest } := by
  obtain ⟨hf, ho⟩ := hs
  simp [step, stepIdle, hf, ho, hq]

/-- An unfaulted core with an operation in progress takes one step inside it (log entry 2). -/
theorem step_of_op_ne_idle {s : State} (hf : s.faultMark = false) (ho : s.op ≠ .idle) : step s = stepInner s := by
  simp [step, hf, ho]

/-- A packet that decodes is executed whole (R47, R81). -/
theorem servePacket_of_decode_ok {s : State} {pkt : Bytes} {i : Instr}
    (hd : decode s.params.lenBytes (.packet pkt) = .ok i) : servePacket pkt s = exec i s := by
  rw [servePacket, hd]

/-- Inside an operation, the row selected is the row executed (R87, R88). -/
theorem stepInner_of_nextRow {s : State} {i : Instr} (hn : nextRow s = some i) : stepInner s = exec i s := by
  rw [stepInner, hn]

/-- Settles O5: at the command port a step serves the oldest request, which for a packet is `exec` of what it decodes to;
inside an operation a step is `exec` of the selected row. Taking the request off the queue leaves the parameters, and so
the decoding, as they were. -/
theorem stepRunsTheDecodedInstruction : Obligations.StepRunsTheDecodedInstruction := by
  constructor
  · intro s pkt rest i hs hq hd
    have hd' : decode ({ s with inbox := rest } : State).params.lenBytes (.packet pkt) = .ok i := hd
    calc step s = servePacket pkt { s with inbox := rest } := step_of_ready_cons hs hq
      _ = exec i { s with inbox := rest } := servePacket_of_decode_ok hd'
  · intro s i hf ho hn
    rw [step_of_op_ne_idle hf ho, stepInner_of_nextRow hn]

end Sys2Proof.Machine
end

section
/-! PROOFS. What a step of the machine is made of, said once: a few small actions, and a fault at the end where there is
one. Whatever every action keeps, every step keeps. -/

namespace Sys2Proof.Machine

/-- The actions a step is made of. -/
inductive Action : State → State → Prop
  /-- Elements outside the Reassembler and the outputs are written. -/
  | write (s : State) (k : Byte) (o : Op) (q : List Request) (r : Bytes) (w : List Bytes) :
    Action s { s with ckAcc := k, op := o, inbox := q, hostRetained := r, txStream := w }
  /-- A result goes out on the response port (R82). -/
  | answer (s : State) (v : Bytes) : Action s (respond v s)
  /-- The Reassembler starts on a buffer of acceptable length (R161, R200). -/
  | start (s : State) (buf : Bytes) (h : overCapacity s.params buf.length = false) : Action s (initReassembler buf s)
  /-- A pass of PROCESS's loop goes on (R160). -/
  | pass {s t : State} (h : loopPass s = .go t) : Action s t

/-- Some actions one after the other lead from `s` to `t`. -/
abbrev Acts (s t : State) : Prop := Relation.ReflTransGen Action s t

/-- An outcome is reached from `s` by actions; a fault then only sets the fault mark (R216). -/
def ActsTo (s : State) : Host.Outcome State Fault Refusal → Prop
  | .next t => Acts s t
  | .fault (.capacityExceeded l) => ∃ u, Acts s u ∧ l = markFault u
  | .refused _ => True

theorem Acts.answer {s t : State} (h : Acts s t) (v : Bytes) : Acts s (respond v t) := h.tail (.answer t v)

theorem acts_write (s : State) (k : Byte) (o : Op) (q : List Request) (r : Bytes) (w : List Bytes) :
    Acts s { s with ckAcc := k, op := o, inbox := q, hostRetained := r, txStream := w } :=
  .single (.write s k o q r w)

theorem acts_sumInto (p : Bytes) (s : State) : Acts s (sumInto p s) := acts_write ..

/-- An outcome reached from `s₁` is reached from every state that leads to `s₁`. -/
theorem Acts.actsTo {s s₁ : State} {o : Host.Outcome State Fault Refusal} (h : Acts s s₁) (ho : ActsTo s₁ o) :
    ActsTo s o := by
  match o, ho with
  | .next _, ho => exact h.trans ho
  | .fault (.capacityExceeded _), ⟨u, hu, hl⟩ => exact ⟨u, h.trans hu, hl⟩
  | .refused _, _ => trivial

theorem actsTo_raiseCapacity (s : State) : ActsTo s (raiseCapacity s) := ⟨s, .refl, rfl⟩

/-! ### PROCESS's loop -/

/-- PROCESS's loop is actions, however it ends. -/
theorem acts_runLoop (n : Nat) (s : State) : Acts s (runLoop n s).state :=
  runLoop_induction (Acts s) (fun _ _ h hp => h.tail (.pass hp)) n s .refl

theorem actsTo_outcome {s : State} {p : Pass} (h : Acts s p.state) : ActsTo s p.outcome := by
  cases p with
  | go t => exact h.answer _
  | stop t => exact h.answer _
  | full t => exact ⟨t, h, rfl⟩

theorem actsTo_execProcess (buf : Bytes) (s : State) : ActsTo s (execProcess buf s) := by
  rw [execProcess]
  cases ho : overCapacity s.params buf.length with
  | true => exact actsTo_raiseCapacity s
  | false => exact actsTo_outcome (.head (.start s buf ho) (acts_runLoop _ _))

/-! ### The steps inside an operation, and the meanings -/

theorem acts_opReturn (s : State) : Acts s (opReturn s) := by
  rw [opReturn]
  cases s.op with
  | idle => exact .refl
  | escape rest out => exact (acts_write ..).answer out
  | unescape rest out => exact (acts_write ..).answer out
  | cksum rest => exact (acts_write ..).answer [s.ckAcc]
  | encodeSum payload rest => exact acts_write ..
  | encodeEsc rest out => exact (acts_write ..).answer _
  | process => exact .refl
  | processDone => exact (acts_write ..).answer _

/-- With no row selected, the loop of the operation in progress is over. -/
theorem actsTo_stepInner_of_none {s : State} (hn : nextRow s = none) : ActsTo s (stepInner s) := by
  rw [stepInner, hn]
  exact acts_opReturn s

/-- A step inside an operation: its byte cases and returns write only outside the Reassembler and the response port, and a
step of a PROCESS in progress is a pass of its loop. -/
theorem actsTo_stepInner (s : State) : ActsTo s (stepInner s) := by
  cases ho : s.op with
  | idle => exact actsTo_stepInner_of_none (by rw [nextRow, ho])
  | escape rest out =>
    cases rest with
    | nil => exact actsTo_stepInner_of_none (by rw [nextRow, ho])
    | cons b rest => rw [stepInner_escape ho]; exact acts_write ..
  | unescape rest out =>
    cases rest with
    | nil => exact actsTo_stepInner_of_none (by rw [nextRow, ho])
    | cons b rest => rw [stepInner_unescape ho]; exact acts_write ..
  | cksum rest =>
    cases rest with
    | nil => exact actsTo_stepInner_of_none (by rw [nextRow, ho])
    | cons b rest => rw [stepInner_cksum ho]; exact acts_write ..
  | encodeSum payload rest =>
    cases rest with
    | nil => exact actsTo_stepInner_of_none (by rw [nextRow, ho])
    | cons b rest => rw [stepInner_encodeSum ho]; exact acts_write ..
  | encodeEsc rest out =>
    cases rest with
    | nil => exact actsTo_stepInner_of_none (by rw [nextRow, ho])
    | cons b rest => rw [stepInner_encodeEsc ho]; exact acts_write ..
  | process =>
    rw [stepInner_process ho]
    cases hp : loopPass s with
    | go t => exact .single (.pass hp)
    | stop t => rw [(loopPass_stop hp).1]; exact acts_write ..
    | full t => rw [(loopPass_full hp).1]; exact actsTo_raiseCapacity s
  | processDone => exact actsTo_stepInner_of_none (by rw [nextRow, ho])

/-- A row that is not selected is refused (log entry 3), and a refusal is reached from anywhere. -/
theorem actsTo_whenSelected_of_ne {row : Instr} {s : State} {o : Host.Outcome State Fault Refusal}
    (hn : nextRow s ≠ some row) : ActsTo s (whenSelected row s o) := by
  rw [whenSelected, if_neg hn]
  trivial

theorem overCapacity_zero (p : Params) : overCapacity p 0 = false := by
  rcases p with ⟨-, _ | _, _ | _, -⟩ <;> simp [overCapacity]

/-- Every meaning is made of actions. A row that is selected is the step inside the operation in progress. -/
theorem actsTo_exec (i : Instr) (s : State) : ActsTo s (exec i s) := by
  by_cases hn : nextRow s = some i
  · rw [← stepInner_of_nextRow hn]
    exact actsTo_stepInner s
  cases i with
  | escape x => exact .single (.answer s _)
  | unescape x => exact .single (.answer s _)
  | cksum16 opd =>
    rw [exec, execCksum16]
    split
    · exact (acts_sumInto opd s).answer _
    · trivial
  | encode opd =>
    rw [exec, execEncode]
    split
    · exact (acts_sumInto _ s).answer _
    · trivial
  | process buf => exact actsTo_execProcess buf s
  | rsmReset opd =>
    rw [exec, execRsmReset]
    split
    · exact Acts.answer (.single (.start s [] (overCapacity_zero _))) []
    · trivial
  | _ => exact actsTo_whenSelected_of_ne hn

/-! ### The requests, and a whole step -/

theorem actsTo_servePacket (bytes : Bytes) (s : State) : ActsTo s (servePacket bytes s) := by
  rw [servePacket]
  split
  · exact actsTo_exec _ s
  · trivial

theorem actsTo_beginStepwise (i : Instr) (s : State) : ActsTo s (beginStepwise i s) := by
  cases i with
  | escape x => exact acts_write ..
  | unescape x => exact acts_write ..
  | cksum16 opd =>
    rw [beginStepwise]
    split
    · exact acts_write ..
    · trivial
  | encode opd =>
    rw [beginStepwise]
    split
    · exact acts_write ..
    · trivial
  | process buf =>
    rw [beginStepwise]
    cases ho : overCapacity s.params buf.length with
    | true => exact actsTo_raiseCapacity s
    | false => exact .head (.start s buf ho) (acts_write ..)
  | _ => rw [beginStepwise]; exact actsTo_exec _ s

theorem actsTo_serveStepwise (bytes : Bytes) (s : State) : ActsTo s (serveStepwise bytes s) := by
  rw [serveStepwise]
  split
  · exact actsTo_beginStepwise _ s
  · trivial

/-- The host's bookkeeping of RECV follows PROCESS (R56). -/
theorem actsTo_serveRecv (chunk : Bytes) (s : State) : ActsTo s (serveRecv chunk s) := by
  have h := actsTo_exec (.process (s.hostRetained ++ chunk)) s
  rw [serveRecv]
  cases he : exec (.process (s.hostRetained ++ chunk)) s with
  | next t => rw [he] at h; exact h.trans (acts_write ..)
  | fault f => rw [he] at h; exact h
  | refused r => trivial

/-- The host's part of opening and closing follows RSM_RESET (R61, R243). -/
theorem actsTo_resetConnection (s : State) : ActsTo s (resetConnection s) := by
  have h := actsTo_exec (.rsmReset []) s
  rw [resetConnection]
  cases he : exec (.rsmReset []) s with
  | next t => rw [he] at h; exact h.trans (acts_write ..)
  | fault f => rw [he] at h; exact h
  | refused r => trivial

theorem actsTo_serve (r : Request) (s : State) : ActsTo s (serve r s) := by
  cases r with
  | packet bytes => exact actsTo_servePacket bytes s
  | stepwise bytes => exact actsTo_serveStepwise bytes s
  | encodeCan id data =>
    rw [serve, serveEncodeCan]
    split
    · exact actsTo_exec _ s
    · trivial
  | encodeCtrl cmd param => rw [serve, serveEncodeCtrl]; exact actsTo_exec _ s
  | recv chunk => exact actsTo_serveRecv chunk s
  | write frame ok =>
    cases ok with
    | true => exact acts_write ..
    | false => exact .refl
  | openConn ok =>
    cases ok with
    | true => exact actsTo_resetConnection s
    | false => exact .refl
  | closeConn => exact actsTo_resetConnection s

/-- Every step is made of actions. -/
theorem actsTo_step (s : State) : ActsTo s (step s) := by
  rcases step_cases s with ⟨-, hstep⟩ | ⟨-, -, hstep⟩ | ⟨-, r, rest, -, hstep⟩ | ⟨-, -, hstep⟩ <;> rw [hstep]
  · exact actsTo_raiseCapacity s
  · exact .refl
  · exact (acts_write ..).actsTo (actsTo_serve r { s with inbox := rest })
  · exact actsTo_stepInner s

/-- What every action keeps, actions keep. -/
theorem Acts.keeps {P : State → Prop} (hP : ∀ s t, P s → Action s t → P t) {s t : State} (h : Acts s t) (hs : P s) :
    P t := by
  induction h with
  | refl => exact hs
  | tail _ ha ih => exact hP _ _ ih ha

/-- What every action and the fault mark keep, holds after a step, and in the state a fault leaves. -/
theorem step_keeps {P : State → Prop} (hP : ∀ s t, P s → Action s t → P t) (hF : ∀ s, P s → P (markFault s))
    {s : State} (hs : P s) :
    (∀ t, step s = .next t → P t) ∧ ∀ l, step s = .fault (.capacityExceeded l) → P l := by
  have h := actsTo_step s
  constructor
  · intro t ht
    rw [ht] at h
    exact Acts.keeps hP h hs
  · intro l hl
    rw [hl] at h
    obtain ⟨u, hu, rfl⟩ := h
    exact hF u (hu.keeps hP hs)

end Sys2Proof.Machine
end

section
/-! PROOFS. The invariant (R33, R27, R11) and the growth of the outputs, action by action. -/

namespace Sys2Proof.Machine

/-! ### The invariant where the Reassembler starts -/

/-- The start values meet R33 for every buffer. -/
theorem reassemblerInv_initReassembler (buf : Bytes) (s : State) : ReassemblerInv (initReassembler buf s) := by
  simp [ReassemblerInv]

theorem capacityInv_initReassembler {buf : Bytes} {s : State} (h : overCapacity s.params buf.length = false) :
    CapacityInv (initReassembler buf s) := ⟨h, Nat.zero_le _⟩

theorem inv_hardReset (s : State) : Inv (hardReset s) :=
  ⟨reassemblerInv_initReassembler [] s, rfl, capacityInv_initReassembler (overCapacity_zero s.params)⟩

/-- The state after reset is one that a later reset leaves. -/
theorem hardReset_reset : hardReset State.reset = State.reset := rfl

/-- Settles O38: the registers start at R33's values for the empty buffer, and EMITTED and the port record start empty. -/
theorem resetMeetsTheInvariant : Obligations.ResetMeetsTheInvariant :=
  ⟨hardReset_reset ▸ inv_hardReset State.reset, inv_hardReset⟩

/-! ### The invariant over a pass of the loop -/

/-- A slice one byte longer is the slice and that byte (R33 c). -/
theorem slice_succ {b : Bytes} {i j : Nat} (hij : i ≤ j) (hj : j < b.length) :
    slice b i (j + 1) = slice b i j ++ [b.getD j 0] := by
  have hlen : i ≤ (b.take j).length := by rw [List.length_take]; omega
  rw [slice, slice, List.take_add_one, List.drop_append_of_le_length hlen, List.getD_eq_getElem?_getD,
    List.getElem?_eq_getElem hj, Option.toList_some, Option.getD_some]

theorem slice_self (b : Bytes) (i : Nat) : slice b i i = [] := by simp [slice]

/-- HEAD HEAD: what follows the cursor by two bytes is empty yet (R162). -/
theorem reassemblerInv_enterFrame {s : State} (h : ReassemblerInv s) (hm : s.rsmMode = .awaitingFrameStart)
    (hr : 2 ≤ remaining s) : ReassemblerInv (enterFrame s) := by
  obtain ⟨-, -, hawait, -, hlen⟩ := h
  obtain ⟨hpos, hacc⟩ := hawait hm
  rw [remaining] at hr
  refine ⟨?_, ?_, nofun, fun _ => ⟨?_, ?_⟩, hlen⟩
  · simp; omega
  · simp; omega
  · simp [hpos]
  · simp [hpos, hacc, slice_self]

/-- TAIL TAIL: the position and the cursor meet past it, and nothing is accumulated (R165). -/
theorem reassemblerInv_closeFrame {s : State} (hr : 2 ≤ remaining s) : ReassemblerInv (closeFrame s) := by
  rw [remaining] at hr
  refine ⟨Nat.le_refl _, ?_, fun _ => ⟨rfl, rfl⟩, nofun, Nat.zero_le _⟩
  simp; omega

/-- An appended byte is the one at the position, so the accumulator stays the slice up to it (R166, R167). -/
theorem reassemblerInv_appendByte {s : State} (h : ReassemblerInv s) (hm : s.rsmMode = .accumulatingPayload)
    (hr : 1 ≤ remaining s) : ReassemblerInv (appendByte (bufRead s s.rsmPos) s) := by
  obtain ⟨-, hpos, -, haccum, -⟩ := h
  obtain ⟨hcur, hacc⟩ := haccum hm
  rw [remaining] at hr
  have hslice : s.rsmAccum ++ [bufRead s s.rsmPos] = slice s.buf (s.rsmCursor + 2) (s.rsmPos + 1) := by
    rw [slice_succ hcur (by omega), ← hacc, bufRead]
  refine ⟨?_, ?_, fun hmode => ?_, fun _ => ⟨?_, hslice⟩, ?_⟩
  · simp; omega
  · simp; omega
  · rw [appendByte_rsmMode, hm] at hmode; cases hmode
  · simp; omega
  · have hle := congrArg List.length hacc
    simp [slice] at hle
    simp; omega

/-- An append finds room, so the accumulator stays within ACCUM_CAP (R173). -/
theorem capacityInv_appendByte {s : State} (h : CapacityInv s) (hf : accumFull s = false) (b : Byte) :
    CapacityInv (appendByte b s) := by
  obtain ⟨hbuf, -⟩ := h
  refine ⟨hbuf, ?_⟩
  cases hc : s.params.accumCap with
  | none => simp [hc]
  | some cap => simpa [hc] using accumFull_eq_false.1 hf cap hc

theorem inv_loopPass {s t : State} (h : Inv s) (hp : loopPass s = .go t) : Inv t := by
  obtain ⟨hreg, hport, hcap⟩ := h
  rcases loopPass_go hp with ⟨hm, hr, -, -, rfl⟩ | ⟨-, hr, -, -, rfl⟩ | ⟨hm, hr, -, hf, rfl⟩
  · exact ⟨reassemblerInv_enterFrame hreg hm hr, hport, hcap⟩
  · obtain ⟨hbuf, -⟩ := hcap
    refine ⟨reassemblerInv_closeFrame hr, ?_, hbuf, Nat.zero_le _⟩
    simp [PortInv, loggedFrames_append, loggedFrames, hport]
  · exact ⟨reassemblerInv_appendByte hreg hm hr, hport, capacityInv_appendByte hcap hf _⟩

/-! ### The invariant over every step -/

/-- A response is no frame (R82, R27). -/
theorem inv_respond {s : State} (h : Inv s) (v : Bytes) : Inv (respond v s) := by
  obtain ⟨hreg, hport, hcap⟩ := h
  refine ⟨hreg, ?_, hcap⟩
  simp [PortInv, loggedFrames_append, loggedFrames, hport]

theorem inv_initReassembler {s : State} (h : Inv s) {buf : Bytes} (ho : overCapacity s.params buf.length = false) :
    Inv (initReassembler buf s) := by
  obtain ⟨-, hport, -⟩ := h
  exact ⟨reassemblerInv_initReassembler buf s, hport, capacityInv_initReassembler ho⟩

theorem inv_action (s t : State) (h : Inv s) (ha : Action s t) : Inv t := by
  cases ha with
  | write => exact h
  | answer v => exact inv_respond h v
  | start buf ho => exact inv_initReassembler h ho
  | pass hp => exact inv_loopPass h hp

/-- Settles O39: the invariant speaks of nothing a `write` or the fault mark changes, and every other action keeps it. -/
theorem stepKeepsTheInvariant : Obligations.StepKeepsTheInvariant :=
  fun _ hs => step_keeps inv_action (fun _ hu => hu) hs

/-! ### The outputs over every step -/

/-- From `s` to `t` the outputs only grow at their end; the parameters and the fault mark stay. -/
def OutputsGrow (s t : State) : Prop :=
  s.emitted <+: t.emitted ∧ s.portLog <+: t.portLog ∧ t.params = s.params ∧ t.faultMark = s.faultMark

theorem OutputsGrow.refl (s : State) : OutputsGrow s s := ⟨List.prefix_rfl, List.prefix_rfl, rfl, rfl⟩

theorem OutputsGrow.trans {s t u : State} (h : OutputsGrow s t) (h' : OutputsGrow t u) : OutputsGrow s u := by
  obtain ⟨he, hl, hp, hf⟩ := h
  obtain ⟨he', hl', hp', hf'⟩ := h'
  exact ⟨he.trans he', hl.trans hl', hp'.trans hp, hf'.trans hf⟩

theorem outputsGrow_loopPass {s t : State} (hp : loopPass s = .go t) : OutputsGrow s t := by
  have hframe := runLoop_frame 1 s
  rw [runLoop, hp] at hframe
  obtain ⟨hparams, -, hfault, -, -, -, -, -, hemitted, hlog⟩ := hframe
  exact ⟨hemitted, hlog, hparams, hfault⟩

theorem outputsGrow_action {s t : State} (ha : Action s t) : OutputsGrow s t := by
  cases ha with
  | write => exact .refl s
  | answer v => exact ⟨List.prefix_rfl, List.prefix_append _ _, rfl, rfl⟩
  | start buf ho => exact .refl s
  | pass hp => exact outputsGrow_loopPass hp

/-- Actions make the outputs grow, from the state they begin in. -/
theorem Acts.outputsGrow {s t : State} (h : Acts s t) : OutputsGrow s t :=
  h.keeps (P := OutputsGrow s) (fun _ _ hu ha => hu.trans (outputsGrow_action ha)) (.refl s)

/-- There is no next state after a fault (R217). -/
theorem faultMark_of_step_next {s t : State} (h : step s = .next t) : s.faultMark = false := by
  by_contra hf
  rw [step, if_pos (by simpa using hf)] at h
  cases h

/-- Settles O40: a step is made of actions, each of which only appends to the outputs; and a faulted state has no step. -/
theorem stepOnlyAppendsToTheOutputs : Obligations.StepOnlyAppendsToTheOutputs := by
  intro s t h
  have hacts : ActsTo s (.next t) := h ▸ actsTo_step s
  obtain ⟨hemitted, hlog, hparams, hfault⟩ := Acts.outputsGrow hacts
  have hclear := faultMark_of_step_next h
  exact ⟨hemitted, hlog, hparams, hclear, hfault.trans hclear⟩

end Sys2Proof.Machine
end

section
/-! PROOFS. The outcome of PROCESS in closed form where there is room, and what the host's requests do with it. -/

namespace Sys2Proof.Machine

/-! ### PROCESS, where there is room -/

/-- The port events of a whole PROCESS: its frames, then its response (R82, R169, R171). -/
def processEvents (buf : Bytes) : List PortEvent :=
  (parsed buf).portLog ++
    [.response (lengthField (le32 (countField buf (consumedOf buf)))) (le32 (countField buf (consumedOf buf)))]

/-- The state a completed PROCESS of `buf` leaves (R160, R176). -/
def processed (buf : Bytes) (s : State) : State :=
  { s with
    rsmMode := (parsed buf).rsmMode, rsmAccum := (parsed buf).rsmAccum, rsmPos := (parsed buf).rsmPos,
    rsmCursor := consumedOf buf, emitted := s.emitted ++ framesOf buf, buf := buf,
    portLog := s.portLog ++ processEvents buf }

/-- Where there is room PROCESS completes, in a state that `buf` and the state before determine (R173, R176). -/
theorem exec_process_of_hasRoom {buf : Bytes} {s : State} (hr : hasRoom s.params buf = true) :
    exec (.process buf) s = .next (processed buf s) := by
  rcases execProcess_cases buf s with ⟨hfull, -⟩ | ⟨-, t, hexec, hloop, hemitted, hcursor, hmode, hpos, haccum, hlog⟩
  · rw [hr] at hfull; cases hfull
  · have hframe := runLoop_frame (buf.length + 1) (initReassembler buf s)
    rw [hloop] at hframe
    obtain ⟨hparams, hck, hfault, hbuf, hop, hinbox, hret, htx, -, -⟩ := hframe
    calc exec (.process buf) s = .next (returnCursor t) := hexec
      _ = .next (processed buf s) := by
        cases t
        simp_all [returnCursor, respond, processed, processEvents, Pass.state]

/-! ### The requests of the host -/

/-- RECV with room: PROCESS of the retained bytes and the chunk, then the consumed bytes are dropped (R56, R91). -/
theorem step_recv_of_hasRoom {s : State} {chunk : Bytes} {rest : List Request} (hs : Ready s)
    (hq : s.inbox = .recv chunk :: rest) (hr : hasRoom s.params (s.hostRetained ++ chunk) = true) :
    step s = .next { processed (s.hostRetained ++ chunk) { s with inbox := rest } with
      hostRetained := (s.hostRetained ++ chunk).drop (consumedOf (s.hostRetained ++ chunk)) } := by
  have hexec : exec (.process (s.hostRetained ++ chunk)) { s with inbox := rest } =
      .next (processed (s.hostRetained ++ chunk) { s with inbox := rest }) := exec_process_of_hasRoom hr
  rw [step_of_ready_cons hs hq, serve, serveRecv, hexec]
  rfl

/-- Settles O47, from the state a receive iteration leaves. -/
theorem receiveIterationDropsTheConsumed : Obligations.ReceiveIterationDropsTheConsumed := by
  intro s chunk rest hs hq hr
  exact ⟨_, step_recv_of_hasRoom hs hq hr, rfl, rfl, rfl, rfl, rfl, hs⟩

/-- The host's part of opening and closing (R61, R200, R243). -/
theorem resetConnection_eq (s : State) : resetConnection s = .next { s with
    rsmMode := .awaitingFrameStart, rsmAccum := [], rsmPos := 0, rsmCursor := 0, buf := [],
    portLog := s.portLog ++ [.response 0 []], hostRetained := [] } := rfl

/-- Settles O51: a close, and an opening that is claimed, are served by the same reset of the connection; an opening that
is not claimed only leaves the queue. -/
theorem openAndCloseDiscard : Obligations.OpenAndCloseDiscard := by
  intro s rest hs
  refine ⟨?_, fun hq => step_of_ready_cons hs hq⟩
  rintro (hq | hq) <;> rw [step_of_ready_cons hs hq]
  · exact resetConnection_eq _
  · exact resetConnection_eq _

/-- Settles O54: a write is served off the queue, and serving it names the transmit stream alone. -/
theorem writesTouchOnlyTheTransmitStream : Obligations.WritesTouchOnlyTheTransmitStream :=
  fun _ _ _ hs => ⟨fun hq => step_of_ready_cons hs hq, fun hq => step_of_ready_cons hs hq⟩

/-! ### The sender beside the receiver -/

/-- ENCODE of 16 bytes completes: CK.ACC gets the checksum and the frame goes out (R140). -/
theorem exec_encode_of_length {p : Bytes} (hp : p.length = 16) (s : State) :
    exec (.encode p) s = .next (respond (wireFrame p) (sumInto p s)) := by
  rw [exec, execEncode, if_pos (show p.length = payloadLen from hp), payloadOfOperand_bytes hp]

/-- A response on the port adds no frame, wherever it stands (R82). -/
theorem loggedFrames_response_comm (log events : List PortEvent) (len : BitVec 32) (v : Bytes) :
    loggedFrames (log ++ events ++ [.response len v]) = loggedFrames (log ++ [.response len v] ++ events) := by
  simp [loggedFrames_append, loggedFrames]

/-- Settles O55: ENCODE writes CK.ACC and one response, PROCESS in its closed form reads none of these, and what it appends
to the ports is determined by its buffer. -/
theorem senderAndReceiverCommute : Obligations.SenderAndReceiverCommute := by
  intro s p buf hp hr
  have hr' : hasRoom (respond (wireFrame p) (sumInto p s)).params buf = true := hr
  exact ⟨_, _, _, _, .response (lengthField (wireFrame p)) (wireFrame p), processEvents buf,
    exec_encode_of_length hp s, exec_process_of_hasRoom hr', exec_process_of_hasRoom hr, exec_encode_of_length hp _,
    rfl, rfl, rfl, rfl, rfl, rfl, rfl, rfl, rfl, loggedFrames_response_comm _ _ _ _, rfl⟩

end Sys2Proof.Machine
end

section
/-! PROOFS. What a step does to the host's retained bytes, and that it leaves no complete frame at their front (R57, R60). -/

namespace Sys2Proof.Machine

/-! ### No complete frame is left at the front of the retained bytes -/

theorem parse_nil (n : Nat) : parse n [] = ([], 0) := by cases n <;> rfl

theorem parse_singleton (n : Nat) (a : Byte) : parse n [a] = ([], 0) := by cases n <;> rfl

/-- No frame begins with other bytes than HEAD HEAD (R164). -/
theorem parse_unopened (n : Nat) {a b : Byte} (h : ¬ (a = 0xAA ∧ b = 0xAA)) (r : Bytes) :
    parse n (a :: b :: r) = ([], 0) := by
  cases n with
  | zero => rfl
  | succ n => rw [parse, if_neg h]

/-- A frame with no TAIL TAIL ahead is not complete (R168). -/
theorem parse_unclosed (n : Nat) {r : Bytes} (h : tailSplit r = none) : parse n (0xAA :: 0xAA :: r) = ([], 0) := by
  cases n with
  | zero => rfl
  | succ n => simp [parse, h]

/-- A complete frame is taken with its delimiters, and what follows it is parsed on (R162, R165). -/
theorem parse_closed (n : Nat) {r f r' : Bytes} (h : tailSplit r = some (f, r')) :
    parse (n + 1) (0xAA :: 0xAA :: r) = (f :: (parse n r').1, f.length + 4 + (parse n r').2) := by
  simp [parse, h]

/-- After the bytes `parse` takes, no complete frame stands at the front (R169, R57). -/
theorem parse_drop_consumed {n : Nat} {buf : Bytes} (hn : buf.length ≤ n) (m : Nat) :
    parse m (buf.drop (parse n buf).2) = ([], 0) := by
  induction n generalizing buf with
  | zero =>
    obtain rfl : buf = [] := List.length_eq_zero_iff.1 (Nat.le_zero.1 hn)
    exact parse_nil m
  | succ n ih =>
    match buf, hn with
    | [], _ => exact parse_nil m
    | [a], _ => exact parse_singleton m a
    | a :: b :: r, hn =>
      by_cases hh : a = 0xAA ∧ b = 0xAA
      · obtain ⟨rfl, rfl⟩ := hh
        cases ht : tailSplit r with
        | none => rw [parse_unclosed _ ht]; exact parse_unclosed m ht
        | some q =>
          obtain ⟨f, r'⟩ := q
          have hsplit : 0xAA :: 0xAA :: r = (0xAA :: 0xAA :: f ++ [0x55, 0x55]) ++ r' := by simp [tailSplit_some ht]
          have hlen := congrArg List.length hsplit
          rw [parse_closed n ht, hsplit, ← List.drop_drop, List.drop_left' (by simp)]
          exact ih (by simp at hlen hn; omega)
      · rw [parse_unopened _ hh]; exact parse_unopened m hh r

/-- A buffer yields no frame and consumes nothing where `parse` takes nothing. -/
theorem framesOf_nil_and_consumedOf_zero_iff (buf : Bytes) :
    framesOf buf = [] ∧ consumedOf buf = 0 ↔ parse buf.length buf = ([], 0) := by
  rw [framesOf_eq_parse, consumedOf_eq_parse, Prod.ext_iff]

/-- Dropping the consumed bytes leaves no complete frame at the front (R57). -/
theorem retainedQuiet_of_drop {t : State} {buf : Bytes} (h : t.hostRetained = buf.drop (consumedOf buf)) :
    RetainedQuiet t := by
  rw [RetainedQuiet, framesOf_nil_and_consumedOf_zero_iff, h, consumedOf_eq_parse]
  exact parse_drop_consumed (Nat.le_refl _) _

/-! ### What a step does to the retained bytes -/

/-- No meaning writes the host's retained bytes (R28). -/
theorem exec_hostRetained {i : Instr} {s t : State} (h : exec i s = .next t) : t.hostRetained = s.hostRetained := by
  rcases exec_next_cases h with ⟨_, _, rfl⟩ | ⟨_, rfl⟩ | ⟨buf, rfl, -, -⟩ | ⟨-, hrow⟩
  · rfl
  · rfl
  · rcases execProcess_cases buf s with ⟨-, l, hl, -⟩ | ⟨hr, -⟩
    · rw [exec, hl] at h; cases h
    · rw [exec_process_of_hasRoom hr] at h; cases h; rfl
  · rcases hrow with ⟨_, rfl⟩ | ⟨_, rfl⟩ | rfl | ⟨-, rfl⟩ | ⟨-, rfl⟩ | ⟨_, -, -, rfl⟩ <;> rfl

theorem opReturn_hostRetained (s : State) : (opReturn s).hostRetained = s.hostRetained := by
  rw [opReturn]
  cases s.op <;> rfl

theorem stepInner_hostRetained {s t : State} (h : stepInner s = .next t) : t.hostRetained = s.hostRetained := by
  rw [stepInner] at h
  split at h
  · exact exec_hostRetained h
  · cases h; exact opReturn_hostRetained s

theorem beginStepwise_hostRetained {i : Instr} {s t : State} (h : beginStepwise i s = .next t) :
    t.hostRetained = s.hostRetained := by
  cases i with
  | escape x => cases h; rfl
  | unescape x => cases h; rfl
  | cksum16 opd => rw [beginStepwise] at h; split at h <;> cases h; rfl
  | encode opd => rw [beginStepwise] at h; split at h <;> cases h; rfl
  | process buf => rw [beginStepwise] at h; split at h <;> cases h; rfl
  | _ => rw [beginStepwise] at h; exact exec_hostRetained h

/-- A request as it is served: the retained bytes stay, or are what a receive iteration does not consume, or are emptied by
the opening or the close of a connection (R56, R61, R243). -/
theorem serve_hostRetained {r : Request} {s t : State} (h : serve r s = .next t) :
    t.hostRetained = s.hostRetained ∨
    (∃ chunk, r = .recv chunk ∧
      t.hostRetained = (s.hostRetained ++ chunk).drop (consumedOf (s.hostRetained ++ chunk))) ∨
    ((r = .closeConn ∨ r = .openConn true) ∧ t.hostRetained = []) := by
  cases r with
  | packet bytes =>
    rw [serve, servePacket] at h
    split at h
    · exact .inl (exec_hostRetained h)
    · cases h
  | stepwise bytes =>
    rw [serve, serveStepwise] at h
    split at h
    · exact .inl (beginStepwise_hostRetained h)
    · cases h
  | encodeCan id data =>
    rw [serve, serveEncodeCan] at h
    split at h
    · exact .inl (exec_hostRetained h)
    · cases h
  | encodeCtrl cmd param => rw [serve, serveEncodeCtrl] at h; exact .inl (exec_hostRetained h)
  | recv chunk =>
    rw [serve, serveRecv] at h
    rcases execProcess_cases (s.hostRetained ++ chunk) s with ⟨-, l, hl, -⟩ | ⟨hr, -⟩
    · rw [exec, hl] at h; cases h
    · rw [exec_process_of_hasRoom hr] at h
      cases h
      exact .inr (.inl ⟨chunk, rfl, rfl⟩)
  | write frame ok => cases ok <;> cases h <;> exact .inl rfl
  | openConn ok =>
    cases ok with
    | true => cases h; exact .inr (.inr ⟨.inr rfl, rfl⟩)
    | false => cases h; exact .inl rfl
  | closeConn => cases h; exact .inr (.inr ⟨.inl rfl, rfl⟩)

/-- Everything a step can do to the retained bytes. -/
theorem step_hostRetained {s t : State} (h : step s = .next t) :
    t.hostRetained = s.hostRetained ∨
    (Ready s ∧ ∃ chunk rest, s.inbox = .recv chunk :: rest ∧
      t.hostRetained = (s.hostRetained ++ chunk).drop (consumedOf (s.hostRetained ++ chunk))) ∨
    (Ready s ∧ (∃ rest, s.inbox = .closeConn :: rest ∨ s.inbox = .openConn true :: rest) ∧ t.hostRetained = []) := by
  rcases step_cases s with ⟨-, hstep⟩ | ⟨-, -, hstep⟩ | ⟨hs, r, rest, hq, hstep⟩ | ⟨-, -, hstep⟩ <;> rw [hstep] at h
  · cases h
  · cases h; exact .inl rfl
  · rcases serve_hostRetained h with hkept | ⟨chunk, rfl, hdrop⟩ | ⟨rfl | rfl, hempty⟩
    · exact .inl hkept
    · exact .inr (.inl ⟨hs, chunk, rest, hq, hdrop⟩)
    · exact .inr (.inr ⟨hs, ⟨rest, .inl hq⟩, hempty⟩)
    · exact .inr (.inr ⟨hs, ⟨rest, .inr hq⟩, hempty⟩)
  · exact .inl (stepInner_hostRetained h)

theorem retainedQuiet_step {s t : State} (hs : RetainedQuiet s) (h : step s = .next t) : RetainedQuiet t := by
  rcases step_hostRetained h with hkept | ⟨-, _, _, -, hdrop⟩ | ⟨-, -, hempty⟩
  · rwa [RetainedQuiet, hkept]
  · exact retainedQuiet_of_drop hdrop
  · exact retainedQuiet_of_drop (buf := []) hempty

/-- Settles O50: a step keeps the retained bytes, drops the consumed ones, or empties them, and none of these leaves a
complete frame; and PROCESS of bytes that hold none emits and consumes nothing. -/
theorem emptyChunkEmitsNothing : Obligations.EmptyChunkEmitsNothing := by
  refine ⟨fun _ _ => retainedQuiet_step, fun s rest hs hu hquiet hq => ?_⟩
  obtain ⟨hframes, hconsumed⟩ := hquiet
  have hstep := step_recv_of_hasRoom hs hq (hasRoom_of_unbounded hu _)
  rw [List.append_nil, hconsumed] at hstep
  exact ⟨_, hstep, by simp [processed, hframes], hconsumed, rfl⟩

end Sys2Proof.Machine
end

section
/-! PROOFS. An operation run one inner step at a time ends as it does when it is run whole (R47, with log entry 2). -/

namespace Sys2Proof.Machine

/-! ### Runs -/

theorem run_succ_of_step_next {M : Host.Core} (n : Nat) {s t : M.State} (h : M.step s = .next t) :
    M.run (n + 1) s = M.run n t := by
  rw [Host.Core.run, h]

theorem run_succ_of_step_fault {M : Host.Core} (n : Nat) {s : M.State} {f : M.Fault} (h : M.step s = .fault f) :
    M.run (n + 1) s = .fault f := by
  rw [Host.Core.run, h]

/-- Some run of the machine from `s` answers `o`. -/
def RunsTo (s : State) (o : Host.Outcome State Fault Refusal) : Prop := ∃ n, core.run n s = o

theorem RunsTo.refl (s : State) : RunsTo s (.next s) := ⟨0, rfl⟩

/-- A run may take one step first. -/
theorem RunsTo.head {s t : State} {o : Host.Outcome State Fault Refusal} (h : step s = .next t) :
    RunsTo t o → RunsTo s o :=
  fun ⟨n, hn⟩ => ⟨n + 1, (run_succ_of_step_next (M := core) n h).trans hn⟩

theorem RunsTo.of_step_fault {s : State} {f : Fault} (h : step s = .fault f) : RunsTo s (.fault f) :=
  ⟨1, run_succ_of_step_fault (M := core) 0 h⟩

/-- A run takes one step inside the operation in progress first. -/
theorem RunsTo.head_inner {s t : State} {o : Host.Outcome State Fault Refusal} (hf : s.faultMark = false)
    (ho : s.op ≠ .idle) (h : stepInner s = .next t) (ht : RunsTo t o) : RunsTo s o :=
  .head ((step_of_op_ne_idle hf ho).trans h) ht

/-- A run ends an operation whose loop is over. -/
theorem RunsTo.head_opReturn {s : State} {o : Host.Outcome State Fault Refusal} (hf : s.faultMark = false)
    (ho : s.op ≠ .idle) (hn : nextRow s = none) (ht : RunsTo (opReturn s) o) : RunsTo s o :=
  .head_inner hf ho (by rw [stepInner, hn]) ht

/-! ### The loops over one byte at a time -/

theorem escape_cons (b : Byte) (x : Bytes) : escape (b :: x) = escape [b] ++ escape x := by
  simp only [escape]
  split <;> rfl

theorem unescape_cons (b : Byte) (x : Bytes) : unescape (b :: x) = unescape [b] ++ unescape x := by
  simp only [unescape]
  split <;> rfl

/-- The rest of an ESCAPE in progress (R100). -/
theorem runsTo_escape (rest out : Bytes) (s : State) (hf : s.faultMark = false) :
    RunsTo { s with op := .escape rest out } (.next (respond (out ++ escape rest) { s with op := .idle })) := by
  induction rest generalizing out with
  | nil => exact .head_opReturn hf nofun rfl (by rw [escape, List.append_nil]; exact .refl _)
  | cons b rest ih =>
    rw [escape_cons, ← List.append_assoc]
    exact .head_inner hf nofun (stepInner_escape rfl) (ih _)

/-- The rest of an UNESCAPE in progress (R105). -/
theorem runsTo_unescape (rest out : Bytes) (s : State) (hf : s.faultMark = false) :
    RunsTo { s with op := .unescape rest out } (.next (respond (out ++ unescape rest) { s with op := .idle })) := by
  induction rest generalizing out with
  | nil => exact .head_opReturn hf nofun rfl (by rw [unescape, List.append_nil]; exact .refl _)
  | cons b rest ih =>
    rw [unescape_cons, ← List.append_assoc]
    exact .head_inner hf nofun (stepInner_unescape rfl) (ih _)

/-- The rest of a CKSUM16 in progress (R120). -/
theorem runsTo_cksum (rest : Bytes) (k : Byte) (s : State) (hf : s.faultMark = false) :
    RunsTo { s with op := .cksum rest, ckAcc := k }
      (.next (respond [rest.foldl ckAdd k] { s with op := .idle, ckAcc := rest.foldl ckAdd k })) := by
  induction rest generalizing k with
  | nil => exact .head_opReturn hf nofun rfl (.refl _)
  | cons b rest ih => exact .head_inner hf nofun (stepInner_cksum rfl) (ih _)

/-- The rest of ENCODE's step 3 (R140). -/
theorem runsTo_encodeEsc (rest out : Bytes) (k : Byte) (s : State) (hf : s.faultMark = false) :
    RunsTo { s with op := .encodeEsc rest out, ckAcc := k }
      (.next (respond (frameAround (out ++ escape rest) k) { s with op := .idle, ckAcc := k })) := by
  induction rest generalizing out with
  | nil => exact .head_opReturn hf nofun rfl (by rw [escape, List.append_nil]; exact .refl _)
  | cons b rest ih =>
    rw [escape_cons, ← List.append_assoc]
    exact .head_inner hf nofun (stepInner_encodeEsc rfl) (ih _)

/-- The rest of ENCODE from its step 2 on (R140). -/
theorem runsTo_encodeSum (payload rest : Bytes) (k : Byte) (s : State) (hf : s.faultMark = false) :
    RunsTo { s with op := .encodeSum payload rest, ckAcc := k }
      (.next (respond (frameAround (escape payload) (rest.foldl ckAdd k))
        { s with op := .idle, ckAcc := rest.foldl ckAdd k })) := by
  induction rest generalizing k with
  | nil => exact .head_opReturn hf nofun rfl (runsTo_encodeEsc payload [] k s hf)
  | cons b rest ih => exact .head_inner hf nofun (stepInner_encodeSum rfl) (ih _)

/-! ### PROCESS's loop inside an operation in progress -/

/-- A pass that ends alike but for the operation in progress. -/
def Pass.withOp (o : Op) : Pass → Pass
  | .go t => .go { t with op := o }
  | .stop t => .stop { t with op := o }
  | .full t => .full { t with op := o }

/-- No pass reads or writes the operation in progress. -/
theorem loopPass_withOp (o : Op) (s : State) : loopPass { s with op := o } = (loopPass s).withOp o := by
  generalize hu : ({ s with op := o } : State) = u
  have hmode : u.rsmMode = s.rsmMode := hu ▸ rfl
  have hwindow : window u = window s := hu ▸ rfl
  have hfull : accumFull u = accumFull s := hu ▸ rfl
  rw [loopPass_window, loopPass_window, hmode, hwindow, hfull]
  cases s.rsmMode with
  | awaitingFrameStart =>
    rcases window s with _ | ⟨a, _ | ⟨b, r⟩⟩
    · subst hu; rfl
    · subst hu; rfl
    · dsimp only; subst hu; split_ifs <;> rfl
  | accumulatingPayload =>
    rcases window s with _ | ⟨a, _ | ⟨b, r⟩⟩
    · subst hu; rfl
    · dsimp only; subst hu; split_ifs <;> rfl
    · dsimp only; subst hu; split_ifs <;> rfl

theorem runLoop_withOp (o : Op) (n : Nat) (s : State) : runLoop n { s with op := o } = (runLoop n s).withOp o := by
  induction n generalizing s with
  | zero => rfl
  | succ n ih =>
    rw [runLoop, runLoop, loopPass_withOp]
    cases loopPass s with
    | go t => exact ih t
    | stop t => rfl
    | full t => rfl

/-- What a run of a PROCESS in progress answers where its loop ends so (R160, R169, R173). -/
def Pass.stepwiseOutcome : Pass → Host.Outcome State Fault Refusal
  | .go t => .next t
  | .stop t => .next (returnCursor { t with op := .idle })
  | .full t => raiseCapacity t

theorem loopFrame_of_go {s t : State} (h : loopPass s = .go t) : LoopFrame s t := by
  have hframe := runLoop_frame 1 s
  rwa [runLoop, h] at hframe

/-- A PROCESS in progress runs to where the loop of R160 ends. -/
theorem runsTo_process (n : Nat) {s : State} (hf : s.faultMark = false) (ho : s.op = .process) :
    RunsTo s (runLoop n s).stepwiseOutcome := by
  induction n generalizing s with
  | zero => exact .refl s
  | succ n ih =>
    have hinner := stepInner_process ho
    have hne : s.op ≠ .idle := by rw [ho]; nofun
    rw [runLoop]
    cases hp : loopPass s with
    | go t =>
      rw [hp] at hinner
      obtain ⟨-, -, hfault, -, hop, -⟩ := loopFrame_of_go hp
      exact .head_inner hf hne hinner (ih (hfault.trans hf) (hop.trans ho))
    | stop t =>
      rw [hp] at hinner
      obtain ⟨rfl, -⟩ := loopPass_stop hp
      exact .head_inner hf hne hinner (.head_opReturn hf nofun rfl (.refl _))
    | full t =>
      rw [hp] at hinner
      exact .of_step_fault ((step_of_op_ne_idle hf hne).trans hinner)

/-! ### The stepwise run beside the whole operation -/

/-- Every selector names a command (R80). -/
theorem isCommand_of_commandOf {op : Byte} {opd : Bytes} {i : Instr} (h : commandOf op opd = some i) :
    isCommand i = true := by
  unfold commandOf at h
  split_ifs at h <;> cases h <;> rfl

/-- What a packet decodes to is a command (R81). -/
theorem isCommand_of_decode {lenBytes : Nat} {pkt : Bytes} {i : Instr} (h : decode lenBytes (.packet pkt) = .ok i) :
    isCommand i = true := by
  cases pkt with
  | nil => cases h
  | cons op body =>
    rw [decode, decodePacket] at h
    split at h
    · cases h
    · rename_i hcommand
      split at h <;> cases h
      exact isCommand_of_commandOf hcommand

/-- From `s`, where the request is stepwise, a run answers what the whole operation does: the next state, the fault and its
state but for the operation in progress, or at once the refusal. -/
def StepwiseMatches (s : State) : Host.Outcome State Fault Refusal → Prop
  | .next t => RunsTo s (.next t)
  | .fault (.capacityExceeded l) => ∃ l', RunsTo s (.fault (.capacityExceeded l')) ∧ l = { l' with op := .idle }
  | .refused r => step s = .refused r

theorem withOp_idle {s : State} (h : s.op = .idle) : { s with op := .idle } = s := by rw [← h]

/-- A PROCESS run stepwise, against the loop of R160 run whole: neither the loop nor its checks read the operation in
progress, and the loop ends within `len + 1` passes (R174). -/
theorem stepwiseMatches_process {s₀ s₁ : State} (buf : Bytes) (hs : Ready s₀)
    (h : step s₁ = beginStepwise (.process buf) s₀) :
    StepwiseMatches s₁ (execProcess buf s₀) := by
  obtain ⟨hf, ho⟩ := hs
  rw [beginStepwise] at h
  rw [execProcess]
  cases hover : overCapacity s₀.params buf.length with
  | true =>
    rw [if_pos hover] at h
    exact ⟨_, .of_step_fault h, (withOp_idle (s := markFault s₀) ho).symm⟩
  | false =>
    rw [if_neg (by simp [hover])] at h
    have hrun := RunsTo.head h (runsTo_process (buf.length + 1) hf rfl)
    rw [runLoop_withOp] at hrun
    have hframe := runLoop_frame (buf.length + 1) (initReassembler buf s₀)
    rcases runLoop_room buf s₀ hover with ⟨-, t, ht⟩ | ⟨-, t, ht, -⟩
    all_goals
      rw [ht] at hrun hframe ⊢
      obtain ⟨-, -, -, -, hop, -⟩ := hframe
      have hidle : { t with op := .idle } = t := withOp_idle (hop.trans ho)
    · exact ⟨_, hrun, hidle ▸ rfl⟩
    · exact hidle ▸ hrun

/-- A command run stepwise ends as it does when it is run whole. -/
theorem stepwiseMatches_exec {s₀ s₁ : State} {i : Instr} (hs : Ready s₀) (hi : isCommand i = true)
    (h : step s₁ = beginStepwise i s₀) : StepwiseMatches s₁ (exec i s₀) := by
  obtain ⟨hf, ho⟩ := hs
  have hidle := withOp_idle ho
  cases i with
  | escape x => exact .head h (hidle ▸ runsTo_escape x [] s₀ hf)
  | unescape x => exact .head h (hidle ▸ runsTo_unescape x [] s₀ hf)
  | cksum16 opd =>
    rw [beginStepwise] at h
    rw [exec, execCksum16]
    split_ifs at h ⊢
    · exact .head h (hidle ▸ runsTo_cksum opd 0 s₀ hf)
    · exact h
  | encode opd =>
    rw [beginStepwise] at h
    rw [exec, execEncode]
    split_ifs at h ⊢ with hlen
    · rw [payloadOfOperand_bytes hlen]
      exact .head h (hidle ▸ runsTo_encodeSum opd opd 0 s₀ hf)
    · exact h
  | process buf => exact stepwiseMatches_process buf ⟨hf, ho⟩ h
  | rsmReset opd =>
    rw [beginStepwise, exec, execRsmReset] at h
    rw [exec, execRsmReset]
    split_ifs at h ⊢
    · exact .head h (.refl _)
    · exact h
  | _ => cases hi

/-- A stepwise request ends as its packet served whole does; one that does not decode is refused alike. -/
theorem stepwiseMatches_servePacket {s₀ s₁ : State} {pkt : Bytes} (hs : Ready s₀)
    (h : step s₁ = serveStepwise pkt s₀) :
    StepwiseMatches s₁ (servePacket pkt s₀) := by
  rw [serveStepwise] at h
  rw [servePacket]
  cases hd : decode s₀.params.lenBytes (.packet pkt) with
  | ok i => rw [hd] at h; exact stepwiseMatches_exec hs (isCommand_of_decode hd) h
  | error e => rw [hd] at h; exact h

/-- Settles O46: both requests leave the queue in one state, from which the stepwise run matches the packet. -/
theorem stepwiseRunReachesTheAtomicResult : Obligations.StepwiseRunReachesTheAtomicResult := by
  intro s pkt rest hs
  have hwhole : step { s with inbox := .packet pkt :: rest } = servePacket pkt { s with inbox := rest } :=
    step_of_ready_cons (s := { s with inbox := .packet pkt :: rest }) hs rfl
  have hmatch : StepwiseMatches { s with inbox := .stepwise pkt :: rest } (servePacket pkt { s with inbox := rest }) :=
    stepwiseMatches_servePacket hs (step_of_ready_cons (s := { s with inbox := .stepwise pkt :: rest }) hs rfl)
  rw [← hwhole] at hmatch
  refine ⟨fun t ht => ?_, fun l hl => ?_, fun r hr => ?_⟩
  · rw [ht] at hmatch
    exact hmatch
  · rw [hl] at hmatch
    obtain ⟨l', ⟨n, hn⟩, hl'⟩ := hmatch
    exact ⟨n, l', hn, hl'⟩
  · rw [hr] at hmatch
    exact hmatch

end Sys2Proof.Machine
end

section
/-! PROOFS. The encodings read back: a command packet is determined by its selector and operand (R80, R81, R83), a byte case
and a step key by the row and the bits the row leaves free (R87, R88). -/

namespace Sys2Proof.Machine

/-! ### The command packet -/

/-- The packets that decode to an instruction are the ones written for its selector and a writable operand (R80, R81). -/
theorem decode_packet_eq_ok_iff {n : Nat} {pkt : Bytes} {i : Instr} :
    decode n (.packet pkt) = .ok i ↔
      ∃ op opd, pkt = packetOf n op opd ∧ fitsLen n opd.length = true ∧ commandOf op opd = some i := by
  constructor
  · intro h
    cases pkt with
    | nil => cases h
    | cons op body =>
      rw [decode, decodePacket] at h
      split at h
      · cases h
      · rename_i hcommand
        split at h <;> cases h
        rename_i hlen
        obtain ⟨hn, hopd⟩ := hlen
        have htake : (body.take n).length = n := List.length_take_of_le hn
        have hwritten : leBytes n (body.drop n).length = body.take n := by
          rw [hopd, ← congrArg (leBytes · _) htake, leBytes_leNat]
        refine ⟨op, body.drop n, ?_, ?_, hcommand⟩
        · rw [packetOf, hwritten, List.take_append_drop]
        · have hlt := leNat_lt (body.take n)
          rw [htake, ← hopd] at hlt
          exact decide_eq_true hlt
  · rintro ⟨op, opd, rfl, hfits, hcommand⟩
    have hlen : (leBytes n opd.length).length = n := leBytes_length n opd.length
    have hread : leNat (leBytes n opd.length) = opd.length := leNat_leBytes n _ (of_decide_eq_true hfits)
    rw [decode, packetOf, decodePacket, List.drop_left' hlen, List.take_left' hlen, hcommand, hread]
    simp

/-- A packet written for a selector decodes to the operation of that selector (R80, R81). -/
theorem decode_packetOf {n : Nat} {op : Byte} {opd : Bytes} {i : Instr} (hfits : fitsLen n opd.length = true)
    (hcommand : commandOf op opd = some i) : decode n (.packet (packetOf n op opd)) = .ok i :=
  decode_packet_eq_ok_iff.2 ⟨op, opd, rfl, hfits, hcommand⟩

/-- The instruction a selector names is encoded with that selector and the same operand (R80). -/
theorem encode_of_commandOf {op : Byte} {opd : Bytes} {i : Instr} (h : commandOf op opd = some i) (n : Nat) :
    encode n i = .packet (packetOf n op opd) := by
  unfold commandOf at h
  split_ifs at h with h1 h2 h3 h4 h5 h6 <;> cases h <;> subst op <;> rfl

theorem fitsLen_zero (n : Nat) : fitsLen n 0 = true := decide_eq_true (Nat.pow_pos (by decide))

/-! ### The byte cases and the step key -/

theorem decodeEscByte_of_not_reserved {b : Byte} (h : isReserved b = false) : decodeEscByte b = .escLit b := by
  have hb : ¬ (b = 0xA5 ∨ b = 0xAA ∨ b = 0x55) := by rw [← isReserved_iff, h]; decide
  simp only [not_or] at hb
  obtain ⟨hA5, hAA, h55⟩ := hb
  rw [decodeEscByte, if_neg hA5, if_neg hAA, if_neg h55]

theorem decodeUnescByte_of_ne_esc {b : Byte} (h : b ≠ 0xA5) : decodeUnescByte b = .unescKeep b := if_neg h

/-- Settles O1, constructor by constructor: a command by the packet law, a byte case by its table, a step row by the fields
of its key. Well-formedness is what makes LEN writable and keeps a row's free bits out of the rows before it. -/
theorem decodeEncodeRoundTrip : Obligations.DecodeEncodeRoundTrip := by
  intro n i h
  cases i with
  | escape s => exact decode_packetOf h rfl
  | unescape s => exact decode_packetOf h rfl
  | cksum16 opd => exact decode_packetOf (Bool.and_eq_true_iff.1 h).1 rfl
  | encode opd => exact decode_packetOf (Bool.and_eq_true_iff.1 h).1 rfl
  | process buf => exact decode_packetOf h rfl
  | rsmReset opd =>
    have hempty : opd.length = 0 := eq_of_beq h
    exact decode_packetOf (hempty ▸ fitsLen_zero n) rfl
  | escPairA5 => rfl
  | escPairAA => rfl
  | escPair55 => rfl
  | escLit b => exact congrArg _ (decodeEscByte_of_not_reserved (by simpa [WellFormed] using h))
  | unescDrop => rfl
  | unescKeep b => exact congrArg _ (decodeUnescByte_of_ne_esc (by simpa [WellFormed, ESC] using h))
  | ckStep b => rfl
  | rsmEnd mode => exact decodeStepKey_packKey ..
  | rsmAwShort b0 => exact decodeStepKey_packKey ..
  | rsmAwHead => exact decodeStepKey_packKey ..
  | rsmAwDesync b0 b1 =>
    have hne : ¬ (b0 = 0xAA ∧ b1 = 0xAA) := by rintro ⟨rfl, rfl⟩; cases h
    exact (decodeStepKey_packKey ..).trans (congrArg Except.ok (if_neg hne))
  | rsmAcLast b0 => exact decodeStepKey_packKey ..
  | rsmAcTail => exact decodeStepKey_packKey ..
  | rsmAcAppend b0 b1 =>
    have hne : ¬ (b0 = 0x55 ∧ b1 = 0x55) := by rintro ⟨rfl, rfl⟩; cases h
    exact (decodeStepKey_packKey ..).trans (congrArg Except.ok (if_neg hne))

/-- Settles O2: a packet that decodes is `packetOf` of its selector and operand, and so is the instruction's code. -/
theorem packetHasOneReading : Obligations.PacketHasOneReading := by
  intro n pkt i h
  obtain ⟨op, opd, rfl, -, hcommand⟩ := decode_packet_eq_ok_iff.1 h
  exact encode_of_commandOf hcommand n

/-- KEY[18:17] of every state, with the count of remaining bytes it stands for (R88). -/
theorem avail_cases (s : State) :
    (remaining s = 0 ∧ avail s = 0b00) ∨ (remaining s = 1 ∧ avail s = 0b01) ∨ (2 ≤ remaining s ∧ avail s = 0b10) := by
  unfold avail
  split_ifs <;> simp_all
  omega

/-- Settles O3, by how many bytes remain and in which mode: the key's fields are the state's, and `decodeStepKey_packKey`
reads R88's table from the fields. -/
theorem stepKeySelectsTheRowOfTheCondition : Obligations.StepKeySelectsTheRowOfTheCondition := by
  intro s
  rw [stepKey, decodeStepKey_packKey]
  rcases avail_cases s with ⟨hr, ha⟩ | ⟨hr, ha⟩ | ⟨hr, ha⟩
  · simp [hr, ha]
  · cases hm : s.rsmMode <;> simp [hr, ha]
  · have h0 : remaining s ≠ 0 := by omega
    have h1 : remaining s ≠ 1 := by omega
    cases hm : s.rsmMode <;> simp [h0, h1, ha]

/-- Settles O4: the packets are those written for their selectors, the other codes stand in finite tables. -/
theorem specWordsDecode : Obligations.SpecWordsDecode :=
  ⟨decode_packetOf (op := 0x01) (opd := [0x11, 0x55, 0x22]) (by decide) rfl,
    decode_packetOf (op := 0x05) (opd := [0xAA]) (by decide) rfl,
    decode_packetOf (op := 0x06) (opd := []) (by decide) rfl, rfl, rfl, rfl, rfl, rfl,
    by decide, by decide, by decide⟩

end Sys2Proof.Machine
end

section
/-! PROOFS. The command port's refusals and its operand check (R84, R85), the pseudo-operations (R89, R90) and the length in
front of what goes out (R82). -/

namespace Sys2Proof.Machine

/-- A reserved selector names no operation (R84). -/
theorem commandOf_reserved {op : Byte} (h : op = 0x00 ∨ 0x07 ≤ op.toNat) (opd : Bytes) : commandOf op opd = none := by
  have hne : ∀ k : Byte, 1 ≤ k.toNat → k.toNat ≤ 6 → op ≠ k := by
    rintro k hlow hhigh rfl
    rcases h with rfl | h
    · exact absurd hlow (by decide)
    · omega
  simp [commandOf, hne]

/-- An idle core whose oldest request is a packet written for a selector executes that selector's operation (R47, R81). -/
theorem step_packetOf {s : State} {op : Byte} {opd : Bytes} {rest : List Request} {i : Instr} (hs : Ready s)
    (hfits : fitsLen s.params.lenBytes opd.length = true)
    (hq : s.inbox = .packet (packetOf s.params.lenBytes op opd) :: rest) (hcommand : commandOf op opd = some i) :
    step s = exec i { s with inbox := rest } :=
  stepRunsTheDecodedInstruction.1 s _ rest i hs hq (decode_packetOf hfits hcommand)

/-- Settles O6: the selector is looked at first, and a reserved one names nothing. -/
theorem reservedSelectorIsRefused : Obligations.ReservedSelectorIsRefused := by
  intro s op body rest hs hq hop
  have hd : decode s.params.lenBytes (.packet (op :: body)) = .error .badSelector := by
    rw [decode, decodePacket, commandOf_reserved hop]
  rw [step_of_ready_cons hs hq, serve, servePacket, hd]
  rfl

/-- An operand longer than BUF_CAP exceeds the capacities (R173). -/
theorem overCapacity_of_bufCap {p : Params} {cap n : Nat} (hc : p.bufCap = some cap) (hn : cap < n) :
    overCapacity p n = true := by
  simp [overCapacity, hc, hn]

/-- Settles O7: each packet decodes, its operand being writable, and the meaning of its operation makes the check. -/
theorem operandLengthIsChecked : Obligations.OperandLengthIsChecked := by
  intro s opd rest hs hfits
  exact ⟨fun hlen hq => (step_packetOf hs hfits hq rfl).trans (if_neg hlen),
    fun hlen hq => (step_packetOf hs hfits hq rfl).trans (if_neg hlen),
    fun hlen hq => (step_packetOf hs hfits hq rfl).trans (if_neg hlen),
    fun cap hcap hlt hq => (step_packetOf hs hfits hq rfl).trans (if_pos (overCapacity_of_bufCap hcap hlt))⟩

/-! ### The pseudo-operations -/

/-- The CAN data payload, byte by byte (R77). -/
theorem canPayload_bytes (id : BitVec 32) (data : Bytes) :
    (canPayload id data).bytes = leBytes 4 id.toNat ++ data ++ [0x08, 0x00, 0x00, 0x00] := by
  rw [← le32_eq_leBytes]; rfl

/-- The control payload, byte by byte (R78). -/
theorem ctrlPayload_bytes (cmd : BitVec 32) (param : Option (BitVec 32)) :
    (ctrlPayload cmd param).bytes = leBytes 4 cmd.toNat ++ leBytes 4 (param.getD 0).toNat ++
      [0x00, 0x00, 0x00, 0x00] ++ [0x04, 0xFF, 0x01, 0x01] := by
  rw [← le32_eq_leBytes, ← le32_eq_leBytes]; rfl

/-- Settles O52: the payload's bytes are R89's, and with 8 data bytes there are 16 of them, on which ENCODE completes. -/
theorem encodeCanExpands : Obligations.EncodeCanExpands := by
  intro s id data rest hs hq
  have hstep : step s = serveEncodeCan id data { s with inbox := rest } := step_of_ready_cons hs hq
  refine ⟨fun hlen => ?_, fun hlen => hstep.trans (if_neg hlen)⟩
  have hexec : step s = exec (.encode (canPayload id data).bytes) { s with inbox := rest } := hstep.trans (if_pos hlen)
  rw [canPayload_bytes] at hexec
  exact ⟨hexec, _, hexec.trans (exec_encode_of_length (by simp [hlen]) _)⟩

/-- Settles O53: the payload's bytes are R90's, always 16, on which ENCODE completes. -/
theorem encodeCtrlExpands : Obligations.EncodeCtrlExpands := by
  intro s cmd param rest hs hq
  have hexec : step s = exec (.encode (ctrlPayload cmd param).bytes) { s with inbox := rest } := step_of_ready_cons hs hq
  rw [ctrlPayload_bytes] at hexec
  exact ⟨hexec, _, hexec.trans (exec_encode_of_length (by simp) _)⟩

/-! ### The output ports -/

/-- The length field on the wire is the length, low byte first (R82). -/
theorem le32_lengthField {v : Bytes} (h : v.length < 2 ^ 32) : le32 (lengthField v) = leBytes 4 v.length := by
  rw [le32_eq_leBytes, lengthField_toNat h]

/-- Settles O56: a response and an event go out as one port event each, with the same length field. -/
theorem portEventsCarryTheirLength : Obligations.PortEventsCarryTheirLength := by
  intro s v hv
  have hwire : le32 (lengthField v) ++ v = leBytes 4 v.length ++ v := by rw [le32_lengthField hv]
  exact ⟨⟨_, respond_portLog v s, hwire⟩, ⟨_, emit_portLog v s, hwire⟩⟩

end Sys2Proof.Machine
end

section
/-! PROOFS. The wire frame: its length (R75), and that the Reassembler recovers it where the checksum is not 0x55 (R74). -/

namespace Sys2Proof.Machine

/-! ### The length of a frame -/

/-- ESCAPE adds one byte for each reserved one (R103). -/
theorem length_escape (s : Bytes) : (escape s).length = s.length + s.countP isReserved := by
  induction s with
  | nil => rfl
  | cons b s ih =>
    cases hb : isReserved b with
    | true => simp [escape_cons_reserved hb, hb, ih]; omega
    | false => simp [escape_cons_plain hb, hb, ih]; omega

/-- The frame around an escaped payload adds two delimiter pairs and the checksum (R71). -/
theorem length_wireFrame (p : Bytes) : (wireFrame p).length = (escape p).length + 5 := by
  simp [wireFrame, frameAround]

/-- Settles O23: 16 payload bytes, one more for each reserved one among them, and 5 bytes of frame. -/
theorem wireFrameLength : Obligations.WireFrameLength := by
  intro p hp
  have hlen : (wireFrame p).length = 21 + p.countP isReserved := by
    rw [length_wireFrame, length_escape, hp]; omega
  have hcount : p.countP isReserved ≤ p.length := List.countP_le_length
  exact ⟨hlen, by omega, by omega⟩

/-! ### The first closing pair of a frame -/

/-- A byte that begins no `55 55` stands before the first such pair (R165, R166). -/
theorem tailSplit_cons {b : Byte} {x : Bytes} (h : ¬ (b = 0x55 ∧ x.head? = some 0x55)) :
    tailSplit (b :: x) = (tailSplit x).map fun p => (b :: p.1, p.2) := by
  cases x with
  | nil => rfl
  | cons c r => rw [tailSplit, if_neg (by simpa using h)]

/-- An escaped sequence never begins with a bare 0x55: ESC stands before it (R103, R104). -/
theorem head_escape_append_ne {k : Byte} (hk : k ≠ 0x55) (s r : Bytes) :
    (escape s ++ k :: r).head? ≠ some 0x55 := by
  cases s with
  | nil => simpa using hk
  | cons b s =>
    cases hb : isReserved b with
    | true => simp [escape_cons_reserved hb]
    | false =>
      have hne : b ≠ 0x55 := by rintro rfl; revert hb; decide
      simpa [escape_cons_plain hb] using hne

/-- After an escaped sequence and a checksum that is not 0x55, the first `55 55` is the closing pair (R74, R104). -/
theorem tailSplit_escape {k : Byte} (hk : k ≠ 0x55) (s r : Bytes) :
    tailSplit (escape s ++ k :: 0x55 :: 0x55 :: r) = some (escape s ++ [k], r) := by
  induction s with
  | nil => rw [escape_nil, List.nil_append, tailSplit_cons fun h => hk h.1]; rfl
  | cons b s ih =>
    have hhead := head_escape_append_ne hk s (0x55 :: 0x55 :: r)
    have hrest : tailSplit (b :: (escape s ++ k :: 0x55 :: 0x55 :: r)) = some (b :: escape s ++ [k], r) := by
      rw [tailSplit_cons fun h => hhead h.2, ih]; rfl
    cases hb : isReserved b with
    | true =>
      rw [escape_cons_reserved hb, List.cons_append, tailSplit_cons (by simp), List.cons_append, hrest]; rfl
    | false => rw [escape_cons_plain hb]; exact hrest

/-! ### Recovery -/

theorem wireFrame_eq (p : Bytes) :
    wireFrame p = 0xAA :: 0xAA :: (escape p ++ checksum p :: 0x55 :: 0x55 :: []) := by
  simp [wireFrame, frameAround, HEAD, TAIL]

/-- What PROCESS finds in a wire frame whose checksum is not 0x55: one frame, and the whole consumed (R74, R160). -/
theorem parse_wireFrame {p : Bytes} (hk : checksum p ≠ 0x55) (n : Nat) :
    parse (n + 1) (wireFrame p) = ([escape p ++ [checksum p]], (wireFrame p).length) := by
  rw [length_wireFrame, wireFrame_eq, parse_closed n (tailSplit_escape hk p []), parse_nil]
  simp

/-- Settles O34: PROCESS finds the frames of `parse`, and `parse` finds the one closing pair of the frame. -/
theorem encodedFrameIsRecovered : Obligations.EncodedFrameIsRecovered := by
  intro p hk
  have hparse := parse_wireFrame hk ((escape p).length + 4)
  rw [← length_wireFrame p] at hparse
  rw [framesOf_eq_parse, consumedOf_eq_parse, hparse]
  exact ⟨rfl, rfl⟩

end Sys2Proof.Machine
end

section
/-! PROOFS. The Escape Codec: ESCAPE and UNESCAPE as functions of their operand (R103, R104, R108), what the two operations
answer (R100, R105), and what their byte cases contribute (R101, R102, R106, R107). -/

namespace Sys2Proof.Machine

/-! ### ESCAPE as a function of its operand -/

theorem isReserved_eq_false_iff (b : Byte) : isReserved b = false ↔ b ≠ 0xA5 ∧ b ≠ 0xAA ∧ b ≠ 0x55 := by
  rw [← Bool.not_eq_true, isReserved_iff, not_or, not_or]

/-- ESCAPE works byte by byte, without memory of what it has read (R100). -/
theorem escape_eq_flatMap (s : Bytes) :
    escape s = s.flatMap (fun b => if b = 0xA5 ∨ b = 0xAA ∨ b = 0x55 then [0xA5, b] else [b]) := by
  induction s with
  | nil => rfl
  | cons b s ih => rw [List.flatMap_cons, ← ih, escape]; split <;> rfl

theorem escape_append (s t : Bytes) : escape (s ++ t) = escape s ++ escape t := by
  simp only [escape_eq_flatMap, List.flatMap_append]

/-- The left-to-right reader takes 0xA5 and the byte after it as one byte (R103 c). -/
theorem readPairs_pair (b : Byte) (r : Bytes) : readPairs (0xA5 :: b :: r) = b :: readPairs r := by
  rw [readPairs, if_pos rfl]

/-- The left-to-right reader takes any other byte as it stands (R103 c). -/
theorem readPairs_literal {b : Byte} (h : b ≠ 0xA5) (r : Bytes) : readPairs (b :: r) = b :: readPairs r := by
  cases r with
  | nil => rfl
  | cons c r => rw [readPairs, if_neg h]

/-- The reader undoes ESCAPE: a reserved byte comes back from its pair, any other byte is not an 0xA5 (R103 c). -/
theorem readPairs_escape (s : Bytes) : readPairs (escape s) = s := by
  induction s with
  | nil => rfl
  | cons b s ih =>
    cases hb : isReserved b with
    | true => rw [escape_cons_reserved hb, readPairs_pair, ih]
    | false =>
      have hne : b ≠ 0xA5 := ((isReserved_eq_false_iff b).1 hb).1
      rw [escape_cons_plain hb, readPairs_literal hne, ih]

theorem escape_injective : Function.Injective escape :=
  Function.LeftInverse.injective readPairs_escape

/-- What ESCAPE makes of one byte holds two 0xA5 for an 0xA5, one for an 0xAA or 0x55, none for another (R103 d). -/
theorem count_esc_escape_singleton (b : Byte) :
    (escape [b]).count 0xA5 = 2 * [b].count 0xA5 + ([b].count 0xAA + [b].count 0x55) := by
  cases hb : isReserved b with
  | true => rcases (isReserved_iff b).1 hb with rfl | rfl | rfl <;> rfl
  | false =>
    obtain ⟨hA5, hAA, h55⟩ := (isReserved_eq_false_iff b).1 hb
    rw [escape_cons_plain hb, escape_nil, List.count_cons_of_ne hA5, List.count_cons_of_ne hAA,
      List.count_cons_of_ne h55]
    rfl

/-- The counts of the single bytes add up (R103 d). -/
theorem count_esc_escape (s : Bytes) :
    (escape s).count 0xA5 = 2 * s.count 0xA5 + (s.count 0xAA + s.count 0x55) := by
  induction s with
  | nil => rfl
  | cons b s ih =>
    have hsplit (c : Byte) : (b :: s).count c = [b].count c + s.count c := List.count_append (l₁ := [b])
    rw [escape_cons, List.count_append, ih, count_esc_escape_singleton, hsplit, hsplit, hsplit]
    omega

/-- Settles O15. The lengths follow from the count of reserved bytes, injectivity from the reader. -/
theorem escapeLengthAndStructure : Obligations.EscapeLengthAndStructure := by
  refine ⟨fun s => ?_, escape_append, readPairs_escape, fun s t h => escape_injective h, count_esc_escape⟩
  have hlen := length_escape s
  have hcount : s.countP isReserved ≤ s.length := List.countP_le_length
  exact ⟨hlen, by omega, by omega⟩

/-! ### No delimiter in an escaped sequence -/

/-- What stands in front of a delimiter byte in an escaped sequence ends with 0xA5 (R104). The cut falls before a byte's
pair, inside it, or after it. -/
theorem getLast_before_delimiter_in_escape {s u v : Bytes} {d : Byte} (hd : d = 0xAA ∨ d = 0x55)
    (h : escape s = u ++ d :: v) : u.getLast? = some 0xA5 := by
  have hne : d ≠ 0xA5 := by rcases hd with rfl | rfl <;> decide
  induction s generalizing u with
  | nil => simp at h
  | cons b s ih =>
    cases hb : isReserved b with
    | true =>
      rw [escape_cons_reserved hb] at h
      match u, h with
      | [], h => exact absurd (List.cons.inj h).1.symm hne
      | [x], h => rw [← (List.cons.inj h).1]; rfl
      | x :: y :: u, h =>
        have hrest : escape s = u ++ d :: v := (List.cons.inj (List.cons.inj h).2).2
        simp [List.getLast?_cons, ih hrest]
    | false =>
      rw [escape_cons_plain hb] at h
      cases u with
      | nil =>
        have hbd : b = d := (List.cons.inj h).1
        obtain ⟨-, hAA, h55⟩ := (isReserved_eq_false_iff b).1 hb
        exact (hd.elim (hbd ▸ hAA) (hbd ▸ h55)).elim
      | cons x u => simp [List.getLast?_cons, ih (List.cons.inj h).2]

/-- No delimiter pair stands in an escaped sequence: its second byte would follow the first and not an 0xA5 (R104). -/
theorem not_pair_infix_escape {d : Byte} (hd : d = 0xAA ∨ d = 0x55) (s : Bytes) : ¬ [d, d] <:+: escape s := by
  rintro ⟨u, v, h⟩
  have hlast : (u ++ [d]).getLast? = some 0xA5 :=
    getLast_before_delimiter_in_escape (v := v) hd (by rw [← h]; simp)
  rw [List.getLast?_concat] at hlast
  rcases hd with rfl | rfl <;> cases hlast

/-- Settles O16. The payload is fifteen zeros and a last byte 0x55, which is its checksum too: V-ENC-10. -/
theorem escapeIsDelimiterFree : Obligations.EscapeIsDelimiterFree :=
  ⟨fun _ _ _ _ h hd => getLast_before_delimiter_in_escape hd h,
    fun s => ⟨not_pair_infix_escape (.inl rfl) s, not_pair_infix_escape (.inr rfl) s⟩,
    List.replicate 15 0x00 ++ [0x55], by decide, by decide⟩

/-! ### UNESCAPE as a function of its operand -/

/-- UNESCAPE is a filter (R108 a). -/
theorem unescape_eq_filter (s : Bytes) : unescape s = s.filter (fun b => b != 0xA5) := by
  induction s with
  | nil => rfl
  | cons b s ih =>
    by_cases hb : b = 0xA5
    · subst hb; exact (unescape_cons_esc s).trans ih
    · rw [unescape_cons_other hb, ih, List.filter_cons_of_pos (p := fun b => b != 0xA5) (bne_iff_ne.2 hb)]

theorem unescape_append (s t : Bytes) : unescape (s ++ t) = unescape s ++ unescape t := by
  simp only [unescape_eq_filter, List.filter_append]

theorem mem_unescape {b : Byte} {s : Bytes} : b ∈ unescape s ↔ b ∈ s ∧ b ≠ 0xA5 := by
  rw [unescape_eq_filter, List.mem_filter, bne_iff_ne]

theorem esc_not_mem_unescape (s : Bytes) : 0xA5 ∉ unescape s := fun h => (mem_unescape.1 h).2 rfl

/-- UNESCAPE leaves a sequence as it is exactly where 0xA5 does not occur in it. -/
theorem unescape_eq_self_iff {s : Bytes} : unescape s = s ↔ 0xA5 ∉ s := by
  constructor
  · intro h
    rw [← h]
    exact esc_not_mem_unescape s
  · intro h
    rw [unescape_eq_filter, List.filter_eq_self]
    exact fun b hb => bne_iff_ne.2 (ne_of_mem_of_not_mem hb h)

/-- What UNESCAPE drops is its 0xA5 bytes (R108 a). -/
theorem length_unescape_add_count (s : Bytes) : (unescape s).length + s.count 0xA5 = s.length := by
  induction s with
  | nil => rfl
  | cons b s ih =>
    by_cases hb : b = 0xA5
    · subst hb; rw [unescape_cons_esc, List.count_cons_self, List.length_cons]; omega
    · rw [unescape_cons_other hb, List.count_cons_of_ne hb]; simp only [List.length_cons]; omega

/-- UNESCAPE after ESCAPE does what UNESCAPE does alone: the 0xA5 that ESCAPE puts before a byte is dropped, and the byte
itself is kept or dropped as it was (R108 d). -/
theorem unescape_escape (s : Bytes) : unescape (escape s) = unescape s := by
  induction s with
  | nil => rfl
  | cons b s ih =>
    have hrest : unescape (b :: escape s) = unescape (b :: s) := by
      rw [unescape_cons, ih, ← unescape_cons]
    cases hb : isReserved b with
    | true => rw [escape_cons_reserved hb, unescape_cons_esc, hrest]
    | false => rw [escape_cons_plain hb, hrest]

/-- Settles O17, the laws of the composition through `unescape_escape`. -/
theorem unescapeLaws : Obligations.UnescapeLaws :=
  ⟨fun s => ⟨unescape_eq_filter s, Nat.eq_sub_of_add_eq (length_unescape_add_count s)⟩,
    fun s => ⟨unescape_eq_self_iff.2 (esc_not_mem_unescape s), esc_not_mem_unescape s⟩,
    unescape_append,
    fun s => (unescape_escape s).trans (unescape_eq_filter s),
    fun s => by rw [unescape_escape, unescape_eq_self_iff]⟩

/-! ### The operations -/

/-- Settles O11: the result is ESCAPE's function of the operand, and it goes out with its length. -/
theorem escapeReturnsStuffedBytes : Obligations.EscapeReturnsStuffedBytes := fun x _ =>
  ⟨escape x, lengthField (escape x), rfl, escape_eq_flatMap x, lengthField_toNat⟩

/-- Settles O12: the result is UNESCAPE's function of the operand, and it goes out with its length. -/
theorem unescapeReturnsFilteredBytes : Obligations.UnescapeReturnsFilteredBytes := fun x _ =>
  ⟨unescape x, lengthField (unescape x), rfl, unescape_eq_filter x, lengthField_toNat⟩

/-! ### The byte cases -/

/-- Inside ESCAPE the row of the next byte contributes what ESCAPE makes of that byte (R101, R102). -/
theorem exec_decodeEscByte_escape {s : State} {b : Byte} {rest out : Bytes} (h : s.op = .escape (b :: rest) out) :
    exec (decodeEscByte b) s = .next { s with op := .escape rest (out ++ escape [b]) } := by
  have hn : nextRow s = some (decodeEscByte b) := by rw [nextRow, h]
  rw [← stepInner_of_nextRow hn, stepInner_escape h]

/-- Inside ENCODE's step 3 the row of the next byte contributes what ESCAPE makes of that byte (R101, R102, R140). -/
theorem exec_decodeEscByte_encodeEsc {s : State} {b : Byte} {rest out : Bytes} (h : s.op = .encodeEsc (b :: rest) out) :
    exec (decodeEscByte b) s = .next { s with op := .encodeEsc rest (out ++ escape [b]) } := by
  have hn : nextRow s = some (decodeEscByte b) := by rw [nextRow, h]
  rw [← stepInner_of_nextRow hn, stepInner_encodeEsc h]

/-- Inside UNESCAPE the row of the next byte contributes what UNESCAPE makes of that byte (R106, R107). -/
theorem exec_decodeUnescByte {s : State} {b : Byte} {rest out : Bytes} (h : s.op = .unescape (b :: rest) out) :
    exec (decodeUnescByte b) s = .next { s with op := .unescape rest (out ++ unescape [b]) } := by
  have hn : nextRow s = some (decodeUnescByte b) := by rw [nextRow, h]
  rw [← stepInner_of_nextRow hn, stepInner_unescape h]

/-- Settles O13: `decodeEscByte` names the row of each byte, and `escape` of the one byte is what the row contributes. -/
theorem escapeByteCasesContribute : Obligations.EscapeByteCasesContribute := by
  intro s rest out
  have hlit {b : Byte} (hA5 : b ≠ 0xA5) (hAA : b ≠ 0xAA) (h55 : b ≠ 0x55) :
      decodeEscByte b = .escLit b ∧ escape [b] = [b] :=
    have hb : isReserved b = false := (isReserved_eq_false_iff b).2 ⟨hA5, hAA, h55⟩
    ⟨decodeEscByte_of_not_reserved hb, escape_cons_plain hb []⟩
  refine ⟨exec_decodeEscByte_escape, exec_decodeEscByte_escape, exec_decodeEscByte_escape, ?_,
    exec_decodeEscByte_encodeEsc, exec_decodeEscByte_encodeEsc, exec_decodeEscByte_encodeEsc, ?_⟩
  · intro b hA5 hAA h55 h
    obtain ⟨hrow, hout⟩ := hlit hA5 hAA h55
    rw [← hrow, exec_decodeEscByte_escape h, hout]
  · intro b hA5 hAA h55 h
    obtain ⟨hrow, hout⟩ := hlit hA5 hAA h55
    rw [← hrow, exec_decodeEscByte_encodeEsc h, hout]

/-- Settles O14: `decodeUnescByte` names the row of each byte, and `unescape` of the one byte is what the row contributes. -/
theorem unescapeByteCasesContribute : Obligations.UnescapeByteCasesContribute := by
  intro s rest out
  constructor
  · intro h
    have hdrop := exec_decodeUnescByte h
    rwa [unescape_cons_esc, unescape_nil, List.append_nil] at hdrop
  · intro b hb h
    rw [← decodeUnescByte_of_ne_esc hb, exec_decodeUnescByte h, unescape_cons_other hb, unescape_nil]

end Sys2Proof.Machine
end

section
/-! PROOFS. The Checksum Unit: the checksum as the sum of its bytes (R122, R123), what CKSUM16 answers (R120), and what its
step adds (R121). -/

namespace Sys2Proof.Machine

/-! ### The checksum as a sum -/

theorem checksum_toNat (p : Bytes) : (checksum p).toNat = (p.map BitVec.toNat).sum % 256 :=
  (foldl_ckAdd_toNat p 0x00).trans (congrArg (· % 256) (Nat.zero_add _))

theorem checksum_eq_ofNat (p : Bytes) : checksum p = BitVec.ofNat 8 ((p.map BitVec.toNat).sum % 256) := by
  rw [← checksum_toNat, BitVec.ofNat_toNat, BitVec.setWidth_eq]

/-- Each byte adds at most 255 to the full sum (R123). -/
theorem sum_toNat_le (p : Bytes) : (p.map BitVec.toNat).sum ≤ p.length * 255 := by
  have hbyte : ∀ n ∈ p.map BitVec.toNat, n ≤ 255 := by
    intro n hn
    obtain ⟨b, -, rfl⟩ := List.mem_map.1 hn
    exact Nat.le_of_lt_succ b.isLt
  have hsum := List.sum_le_card_nsmul (p.map BitVec.toNat) 255 hbyte
  rwa [List.length_map, smul_eq_mul] at hsum

/-- The order of the bytes does not matter: their sum over the naturals is the same (R123). -/
theorem checksum_eq_of_perm {p q : Bytes} (h : q.Perm p) : checksum q = checksum p := by
  rw [checksum_eq_ofNat, checksum_eq_ofNat, (h.map BitVec.toNat).sum_eq]

/-- A byte changed by `d` changes the accumulator by `d`, from any start: what is added early is still there at the end. -/
theorem foldl_ckAdd_set {p : Bytes} {i : Nat} (hi : i < p.length) (a d : Byte) :
    (p.set i (p.getD i 0 + d)).foldl ckAdd a = p.foldl ckAdd a + d := by
  induction p generalizing i a with
  | nil => cases hi
  | cons b p ih =>
    cases i with
    | zero =>
      calc p.foldl ckAdd (a + (b + d))
        _ = p.foldl ckAdd (a + b + d) := by rw [BitVec.add_assoc]
        _ = p.foldl ckAdd (a + b) + d := foldl_ckAdd_add p (a + b) d
    | succ i => exact ih (Nat.lt_of_succ_lt_succ hi) (ckAdd a b)

/-- Settles O20. A swap of two bytes is a permutation; a change by `d ≠ 0` shows, as adding `d` has no fixed point. -/
theorem checksumArithmetic : Obligations.ChecksumArithmetic := by
  intro p hp
  refine ⟨checksum_toNat p, (sum_toNat_le p).trans_eq (by rw [hp]), fun q hq => checksum_eq_of_perm hq, fun i d hi => ?_⟩
  have hset : checksum (p.set i (p.getD i 0 + d)) = checksum p + d := foldl_ckAdd_set (hp ▸ hi) 0x00 d
  refine ⟨hset, fun hd heq => hd ?_⟩
  exact BitVec.add_right_eq_self.1 (hset.symm.trans heq)

/-! ### The operation -/

/-- CKSUM16 of 16 bytes completes: CK.ACC gets the checksum, which goes out (R120). -/
theorem exec_cksum16_of_length {p : Bytes} (hp : p.length = 16) (s : State) :
    exec (.cksum16 p) s = .next (respond [checksum p] (sumInto p s)) :=
  if_pos hp

/-- The length in front of a one-byte result (R82). -/
theorem lengthField_singleton (b : Byte) : lengthField [b] = 1 :=
  lengthField_eq (v := [b]) (by decide : 1 < 2 ^ 32)

/-- Settles O18: CKSUM16 starts its sum anew, so the checksum is the sum whatever CK.ACC held, and one byte goes out. -/
theorem cksum16ReturnsTheSum : Obligations.Cksum16ReturnsTheSum := by
  intro opd s hlen
  rw [exec_cksum16_of_length hlen, respond, lengthField_singleton, sumInto, checksum_eq_ofNat]

/-! ### The step -/

theorem ckAdd_eq_ofNat (a b : Byte) : ckAdd a b = BitVec.ofNat 8 ((a.toNat + b.toNat) % 256) := by
  rw [ckAdd, ← BitVec.toNat_add, BitVec.ofNat_toNat, BitVec.setWidth_eq]

/-- Settles O19: in both operations CK.STEP is the row the next byte selects, so it does what a step inside them does. -/
theorem ckStepAddsTheByte : Obligations.CkStepAddsTheByte := by
  intro s b payload rest
  constructor
  · intro h
    have hn : nextRow s = some (.ckStep b) := by rw [nextRow, h]; rfl
    rw [← stepInner_of_nextRow hn, stepInner_cksum h, ckAdd_eq_ofNat]
  · intro h
    have hn : nextRow s = some (.ckStep b) := by rw [nextRow, h]; rfl
    rw [← stepInner_of_nextRow hn, stepInner_encodeSum h, ckAdd_eq_ofNat]

end Sys2Proof.Machine
end

section
/-! PROOFS. The Frame Encoder: what ENCODE answers (R140, R141), and where the delimiter pairs, the escaped payload and the
checksum stand in the frame (R142). -/

namespace Sys2Proof.Machine

/-! ### The operation -/

/-- Settles O21: ENCODE completes on every 16-byte operand, and RLEN is the frame's length, which fits its four bytes. -/
theorem encodeReturnsTheWireFrame : Obligations.EncodeReturnsTheWireFrame := by
  intro opd s hlen
  obtain ⟨hframe, -, hmax⟩ := wireFrameLength opd hlen
  have hfits : (wireFrame opd).length < 2 ^ 32 := by omega
  rw [exec_encode_of_length hlen, respond, lengthField_eq hfits, hframe]
  rfl

/-! ### Slices of a sequence put together -/

theorem slice_append_left {l : Bytes} {i j : Nat} (hj : j ≤ l.length) (r : Bytes) : slice (l ++ r) i j = slice l i j := by
  rw [slice, slice, List.take_append_of_le_length hj]

theorem slice_append_right (l r : Bytes) (i j : Nat) : slice (l ++ r) (l.length + i) (l.length + j) = slice r i j := by
  rw [slice, List.take_length_add_append, List.drop_length_add_append, slice]

theorem slice_length_self (l : Bytes) : slice l 0 l.length = l := by
  rw [slice, List.take_length, List.drop_zero]

/-- A pair of bytes stands in a sequence at some offset from which two bytes are left. -/
theorem pair_infix_iff_slice {a b : Byte} {l : Bytes} :
    [a, b] <:+: l ↔ ∃ i, i + 2 ≤ l.length ∧ slice l i (i + 2) = [a, b] := by
  constructor
  · rintro ⟨u, v, rfl⟩
    refine ⟨u.length, by simp, ?_⟩
    rw [slice_append_left (by simp)]
    exact (slice_append_right u [a, b] 0 2).trans rfl
  · rintro ⟨i, -, h⟩
    rw [← h]
    exact (List.drop_suffix i _).isInfix.trans (List.take_prefix (i + 2) l).isInfix

/-! ### The frame's parts -/

/-- Between its two delimiter pairs the frame holds the escaped payload and the checksum (R71). -/
theorem wireFrame_eq_append (p : Bytes) :
    wireFrame p = [0xAA, 0xAA] ++ ((escape p ++ [checksum p]) ++ [0x55, 0x55]) := by
  simp [wireFrame, frameAround, HEAD, TAIL]

theorem slice_wireFrame_escape (p : Bytes) : slice (wireFrame p) 2 ((escape p).length + 2) = escape p := by
  rw [wireFrame_eq_append, Nat.add_comm, List.append_assoc]
  calc slice ([0xAA, 0xAA] ++ (escape p ++ ([checksum p] ++ [0x55, 0x55]))) (2 + 0) (2 + (escape p).length)
    _ = slice (escape p ++ ([checksum p] ++ [0x55, 0x55])) 0 (escape p).length := slice_append_right [0xAA, 0xAA] _ _ _
    _ = slice (escape p) 0 (escape p).length := slice_append_left le_rfl _
    _ = escape p := slice_length_self _

theorem getD_wireFrame_checksum (p : Bytes) : (wireFrame p).getD ((escape p).length + 2) 0 = checksum p := by
  simp [wireFrame_eq]

theorem drop_wireFrame_tail (p : Bytes) : (wireFrame p).drop ((escape p).length + 3) = [0x55, 0x55] := by
  rw [wireFrame_eq_append, ← List.append_assoc]
  exact List.drop_left' (by simp)

/-! ### The first closing pair -/

/-- With the closing pair's first byte behind it, an escaped sequence and a checksum hold `55 55` exactly where the
checksum is 0x55: the pair ends at that byte, at the checksum, or inside the escaped sequence, where R104 excludes it. -/
theorem tailFree_escape_concat_iff (s : Bytes) (k : Byte) : TailFree (escape s ++ [k]) ↔ k ≠ 0x55 := by
  have hlast : [0x55] <:+ escape s ++ [k] ↔ k = 0x55 := by simp [eq_comm]
  refine not_congr ?_
  rw [List.infix_concat_iff, List.infix_concat_iff]
  constructor
  · rintro (hclose | hsum | hesc)
    · exact hlast.1 ((List.suffix_append_inj_of_length_eq (l₁ := [0x55]) rfl).1 hclose).1
    · exact hlast.1 (List.IsSuffix.trans ⟨[0x55], rfl⟩ hsum)
    · exact absurd hesc (not_pair_infix_escape (.inr rfl) s)
  · exact fun hk => .inl ((List.suffix_append_inj_of_length_eq (l₁ := [0x55]) rfl).2 ⟨hlast.2 hk, rfl⟩)

/-- The offsets of a frame from 2 to before its closing pair are those of its content and the pair's first byte. -/
theorem no_tail_pair_iff_tailFree (f : Bytes) :
    (∀ j, 2 ≤ j → j < f.length + 2 → slice ([0xAA, 0xAA] ++ (f ++ [0x55, 0x55])) j (j + 2) ≠ [0x55, 0x55]) ↔
      TailFree f := by
  have hlen : (f ++ [(0x55 : Byte)]).length = f.length + 1 := List.length_append
  have hslice {i : Nat} (hi : i + 2 ≤ f.length + 1) :
      slice ([0xAA, 0xAA] ++ (f ++ [0x55, 0x55])) (2 + i) (2 + i + 2) = slice (f ++ [0x55]) i (i + 2) :=
    calc slice ([0xAA, 0xAA] ++ (f ++ [0x55, 0x55])) (2 + i) (2 + (i + 2))
      _ = slice (f ++ [0x55, 0x55]) i (i + 2) := slice_append_right [0xAA, 0xAA] _ _ _
      _ = slice (f ++ [0x55] ++ [0x55]) i (i + 2) := by rw [List.append_assoc]; rfl
      _ = slice (f ++ [0x55]) i (i + 2) := slice_append_left (hlen ▸ hi) _
  rw [TailFree, pair_infix_iff_slice, hlen]
  constructor
  · rintro h ⟨i, hi, hpair⟩
    exact h (2 + i) (by omega) (by omega) ((hslice hi).trans hpair)
  · intro h j hj hlt hpair
    obtain ⟨i, rfl⟩ := Nat.exists_eq_add_of_le hj
    exact h ⟨i, by omega, (hslice (by omega)).symm.trans hpair⟩

/-- Settles O22. The frame is five bytes longer than the escaped payload, which gives each part its offset; (d) holds as
the content of the frame is free of `55 55` up to the closing pair exactly where the checksum is not 0x55. -/
theorem wireFrameProperties : Obligations.WireFrameProperties := by
  intro p _
  rw [length_wireFrame]
  refine ⟨rfl, drop_wireFrame_tail p, slice_wireFrame_escape p, getD_wireFrame_checksum p,
    not_pair_infix_escape (.inr rfl) p, not_pair_infix_escape (.inl rfl) p, ?_⟩
  have hd := no_tail_pair_iff_tailFree (escape p ++ [checksum p])
  rw [← wireFrame_eq_append, tailFree_escape_concat_iff, List.length_append] at hd
  exact hd

end Sys2Proof.Machine
end

section
/-! PROOFS. The seven step rows of PROCESS: which one the bytes at the scan position select (R88), and what it then does
(R162-R168, R173). -/

namespace Sys2Proof.Machine

/-! ### The row selected -/

/-- Inside PROCESS the row selected is the one the step key decodes to (R88). -/
theorem nextRow_of_stepKey {s : State} {i : Instr} (ho : s.op = .process) (h : decodeStepKey (stepKey s) = .ok i) :
    nextRow s = some i := by
  rw [nextRow, ho]
  exact congrArg Except.toOption h

/-- A byte that stands in the buffer is what is read there. -/
theorem bufRead_of_getElem? {s : State} {p : Nat} {b : Byte} (h : s.buf[p]? = some b) : bufRead s p = b := by
  rw [bufRead, List.getD_eq_getElem?_getD, h, Option.getD_some]

theorem two_le_remaining {s : State} {b1 : Byte} (h : s.buf[s.rsmPos + 1]? = some b1) : 2 ≤ remaining s := by
  obtain ⟨hlt, -⟩ := List.getElem?_eq_some_iff.1 h
  rw [remaining]
  omega

/-- Two bytes at the scan position while awaiting a frame (R162, R164). -/
theorem nextRow_awaiting_pair {s : State} {b0 b1 : Byte} (ho : s.op = .process) (hm : s.rsmMode = .awaitingFrameStart)
    (h0 : s.buf[s.rsmPos]? = some b0) (h1 : s.buf[s.rsmPos + 1]? = some b1) :
    nextRow s = some (if b0 = 0xAA ∧ b1 = 0xAA then .rsmAwHead else .rsmAwDesync b0 b1) := by
  have hr := two_le_remaining h1
  have hkey := stepKeySelectsTheRowOfTheCondition s
  rw [if_neg (by omega), if_pos hm, if_neg (by omega), bufRead_of_getElem? h0, bufRead_of_getElem? h1] at hkey
  exact nextRow_of_stepKey ho hkey

/-- Two bytes at the scan position while accumulating (R165, R166). -/
theorem nextRow_accumulating_pair {s : State} {b0 b1 : Byte} (ho : s.op = .process)
    (hm : s.rsmMode = .accumulatingPayload) (h0 : s.buf[s.rsmPos]? = some b0) (h1 : s.buf[s.rsmPos + 1]? = some b1) :
    nextRow s = some (if b0 = 0x55 ∧ b1 = 0x55 then .rsmAcTail else .rsmAcAppend b0 b1) := by
  have hr := two_le_remaining h1
  have hkey := stepKeySelectsTheRowOfTheCondition s
  rw [if_neg (by omega), if_neg (by simp [hm]), if_neg (by omega), bufRead_of_getElem? h0, bufRead_of_getElem? h1] at hkey
  exact nextRow_of_stepKey ho hkey

/-- One byte at the scan position (R163, R167). -/
theorem nextRow_last {s : State} {b0 : Byte} (ho : s.op = .process) (hlast : s.rsmPos + 1 = s.buf.length)
    (h0 : s.buf[s.rsmPos]? = some b0) :
    nextRow s = some (if s.rsmMode = .awaitingFrameStart then .rsmAwShort b0 else .rsmAcLast b0) := by
  have hr : remaining s = 1 := by rw [remaining]; omega
  have hkey := stepKeySelectsTheRowOfTheCondition s
  rw [if_neg (by omega), if_pos hr, if_pos hr, bufRead_of_getElem? h0] at hkey
  exact nextRow_of_stepKey ho hkey

/-- No byte at the scan position (R168). -/
theorem nextRow_end {s : State} (ho : s.op = .process) (hend : s.rsmPos = s.buf.length) :
    nextRow s = some (.rsmEnd s.rsmMode) := by
  have hr : remaining s = 0 := by rw [remaining]; omega
  have hkey := stepKeySelectsTheRowOfTheCondition s
  rw [if_pos hr] at hkey
  exact nextRow_of_stepKey ho hkey

/-! ### What the rows do -/

/-- Settles O24: each condition selects its row, which does what its rule says. -/
theorem awaitingSteps : Obligations.AwaitingSteps := by
  intro s b0 b1 ho hm
  refine ⟨fun h0 h1 => ?_, fun hlast h0 => ?_, fun h0 h1 hne => ?_⟩
  · exact whenSelected_self (nextRow_awaiting_pair ho hm h0 h1) _
  · have hn := nextRow_last ho hlast h0
    rw [if_pos hm] at hn
    exact whenSelected_self hn _
  · have hn := nextRow_awaiting_pair ho hm h0 h1
    rw [if_neg hne] at hn
    exact whenSelected_self hn _

/-- Where two bytes other than TAIL TAIL stand, the first is appended, or finds no room (R166). -/
theorem exec_rsmAcAppend {s : State} {b0 b1 : Byte} (ho : s.op = .process) (hm : s.rsmMode = .accumulatingPayload)
    (h0 : s.buf[s.rsmPos]? = some b0) (h1 : s.buf[s.rsmPos + 1]? = some b1) (hne : ¬ (b0 = 0x55 ∧ b1 = 0x55)) :
    exec (.rsmAcAppend b0 b1) s = stepAppend b0 s := by
  have hn := nextRow_accumulating_pair ho hm h0 h1
  rw [if_neg hne] at hn
  exact whenSelected_self hn _

/-- The last byte is appended, or finds no room (R167). -/
theorem exec_rsmAcLast {s : State} {b0 : Byte} (ho : s.op = .process) (hm : s.rsmMode = .accumulatingPayload)
    (hlast : s.rsmPos + 1 = s.buf.length) (h0 : s.buf[s.rsmPos]? = some b0) :
    exec (.rsmAcLast b0) s = stepAppend b0 s := by
  have hn := nextRow_last ho hlast h0
  rw [if_neg (by simp [hm])] at hn
  exact whenSelected_self hn _

/-- An append where there is room (R14). -/
theorem stepAppend_of_room {s : State} (h : ∀ cap, s.params.accumCap = some cap → s.rsmAccum.length < cap) (b : Byte) :
    stepAppend b s = .next (appendByte b s) :=
  if_neg (by simp [accumFull_eq_false.2 h])

/-- Settles O25: TAIL TAIL closes the frame, any other byte is appended. -/
theorem accumulatingSteps : Obligations.AccumulatingSteps := by
  intro s b0 b1 ho hm
  refine ⟨fun h0 h1 => ?_, fun h0 h1 hne hroom => ?_, fun hlast h0 hroom => ?_⟩
  · exact ⟨lengthField s.rsmAccum, whenSelected_self (nextRow_accumulating_pair ho hm h0 h1) _, lengthField_toNat⟩
  · exact (exec_rsmAcAppend ho hm h0 h1 hne).trans (stepAppend_of_room hroom b0)
  · exact (exec_rsmAcLast ho hm hlast h0).trans (stepAppend_of_room hroom b0)

/-- Settles O26: with no byte left RSM.END is selected in either mode. -/
theorem endStepStops : Obligations.EndStepStops :=
  fun _ ho hend => whenSelected_self (nextRow_end ho hend) _

/-- An append to an accumulator of ACCUM_CAP bytes (R173, R216). -/
theorem stepAppend_of_full {s : State} {cap : Nat} (hcap : s.params.accumCap = some cap) (hlen : s.rsmAccum.length = cap)
    (b : Byte) : stepAppend b s = .fault (.capacityExceeded (markFault s)) :=
  if_pos (by simp [accumFull, hcap, hlen])

/-- Settles O27: both rows that append do it by `stepAppend`. -/
theorem fullAccumulatorFaults : Obligations.FullAccumulatorFaults := by
  intro s b0 b1 cap ho hm hcap hlen
  refine ⟨fun h0 h1 hne => ?_, fun hlast h0 => ?_⟩
  · exact (exec_rsmAcAppend ho hm h0 h1 hne).trans (stepAppend_of_full hcap hlen b0)
  · exact (exec_rsmAcLast ho hm hlast h0).trans (stepAppend_of_full hcap hlen b0)

end Sys2Proof.Machine
end

section
/-! PROOFS. With the default capacities nothing faults (R173, R213): no meaning, no request, no step, and so no run. -/

namespace Sys2Proof.Machine

/-! ### No meaning faults -/

theorem overCapacity_of_unbounded {p : Params} (h : Unbounded p) (n : Nat) : overCapacity p n = false := by
  obtain ⟨-, hbuf, hcnt⟩ := h
  simp [overCapacity, hbuf, hcnt]

/-- A row executed where it is not selected is refused, which is no fault (log entry 3). -/
theorem whenSelected_ne_fault {row : Instr} {s : State} {o : Host.Outcome State Fault Refusal} {f : Fault}
    (h : o ≠ .fault f) : whenSelected row s o ≠ .fault f := by
  rcases whenSelected_cases row s o with ⟨-, he⟩ | ⟨-, he⟩ <;> rw [he]
  · exact h
  · nofun

/-- The one meaning that can fault is PROCESS, and the two rows that append for it (R173). -/
theorem exec_ne_fault {s : State} (h : Unbounded s.params) (i : Instr) (f : Fault) : exec i s ≠ .fault f := by
  have haccum : s.params.accumCap = none := h.1
  have happend (b : Byte) : stepAppend b s ≠ .fault f := by
    rw [stepAppend_of_room (by simp [haccum])]
    nofun
  cases i with
  | escape x => nofun
  | unescape x => nofun
  | cksum16 opd => rw [exec, execCksum16]; split <;> nofun
  | encode opd => rw [exec, execEncode]; split <;> nofun
  | process buf => rw [exec_process_of_hasRoom (hasRoom_of_unbounded h buf)]; nofun
  | rsmReset opd => rw [exec, execRsmReset]; split <;> nofun
  | rsmAcLast b0 => exact whenSelected_ne_fault (happend b0)
  | rsmAcAppend b0 b1 => exact whenSelected_ne_fault (happend b0)
  | _ => exact whenSelected_ne_fault nofun

/-! ### No step faults -/

theorem stepInner_ne_fault {s : State} (h : Unbounded s.params) (f : Fault) : stepInner s ≠ .fault f := by
  rw [stepInner]
  split
  · exact exec_ne_fault h _ f
  · nofun

theorem beginStepwise_ne_fault {s : State} (h : Unbounded s.params) (i : Instr) (f : Fault) :
    beginStepwise i s ≠ .fault f := by
  cases i with
  | escape x => nofun
  | unescape x => nofun
  | cksum16 opd => rw [beginStepwise]; split <;> nofun
  | encode opd => rw [beginStepwise]; split <;> nofun
  | process buf => rw [beginStepwise, if_neg (by simp [overCapacity_of_unbounded h])]; nofun
  | _ => rw [beginStepwise]; exact exec_ne_fault h _ f

theorem serveRecv_ne_fault {s : State} (h : Unbounded s.params) (chunk : Bytes) (f : Fault) :
    serveRecv chunk s ≠ .fault f := by
  rw [serveRecv, exec_process_of_hasRoom (hasRoom_of_unbounded h _)]
  nofun

theorem serve_ne_fault {s : State} (h : Unbounded s.params) (r : Request) (f : Fault) : serve r s ≠ .fault f := by
  cases r with
  | packet bytes =>
    rw [serve, servePacket]
    split
    · exact exec_ne_fault h _ f
    · nofun
  | stepwise bytes =>
    rw [serve, serveStepwise]
    split
    · exact beginStepwise_ne_fault h _ f
    · nofun
  | encodeCan id data =>
    rw [serve, serveEncodeCan]
    split
    · exact exec_ne_fault h _ f
    · nofun
  | encodeCtrl cmd param => rw [serve, serveEncodeCtrl]; exact exec_ne_fault h _ f
  | recv chunk => exact serveRecv_ne_fault h chunk f
  | write frame ok => cases ok <;> nofun
  | openConn ok => cases ok <;> nofun
  | closeConn => nofun

theorem step_ne_fault {s : State} (h : Unbounded s.params) (hf : s.faultMark = false) (f : Fault) :
    step s ≠ .fault f := by
  rcases step_cases s with ⟨hmark, -⟩ | ⟨-, -, hstep⟩ | ⟨-, r, rest, -, hstep⟩ | ⟨-, -, hstep⟩
  · rw [hf] at hmark; cases hmark
  · rw [hstep]; nofun
  · rw [hstep]; exact serve_ne_fault (s := { s with inbox := rest }) h r f
  · rw [hstep]; exact stepInner_ne_fault h f

/-- Settles O58: no request and no step inside an operation faults, and no step writes the parameters or sets the mark. -/
theorem unboundedStepsNeverFault : Obligations.UnboundedStepsNeverFault := by
  intro s hu hf
  refine ⟨step_ne_fault hu hf, fun t ht => ?_⟩
  obtain ⟨-, -, hparams, -, hclear⟩ := stepOnlyAppendsToTheOutputs s t ht
  exact ⟨hparams ▸ hu, hclear⟩

theorem run_succ_of_step_refused {M : Host.Core} (n : Nat) {s : M.State} {r : M.Refusal} (h : M.step s = .refused r) :
    M.run (n + 1) s = .refused r := by
  rw [Host.Core.run, h]

/-- Settles O41: the run meets only unfaulted states with unbounded capacities, and none of their steps faults. -/
theorem unboundedRunsNeverFault : Obligations.UnboundedRunsNeverFault := by
  intro n
  induction n with
  | zero => intro s l _ _; nofun
  | succ n ih =>
    intro s l hu hf
    obtain ⟨hnofault, hkept⟩ := unboundedStepsNeverFault s hu hf
    cases hstep : step s with
    | next t =>
      obtain ⟨hu', hf'⟩ := hkept t hstep
      rw [run_succ_of_step_next (M := core) n hstep]
      exact ih t l hu' hf'
    | fault f => exact absurd hstep (hnofault f)
    | refused r =>
      rw [run_succ_of_step_refused (M := core) n hstep]
      nofun

end Sys2Proof.Machine
end

section
/-! PROOFS. A desync outlives every step but an opening or a close (R180, R247, R61). -/

namespace Sys2Proof.Machine

/-- From other bytes than HEAD HEAD PROCESS emits nothing and consumes nothing, whatever follows them (R164, R180). -/
theorem process_of_unopened {b0 b1 : Byte} (h : ¬ (b0 = 0xAA ∧ b1 = 0xAA)) (r : Bytes) :
    framesOf (b0 :: b1 :: r) = [] ∧ consumedOf (b0 :: b1 :: r) = 0 :=
  (framesOf_nil_and_consumedOf_zero_iff _).2 (parse_unopened _ h r)

/-- What a chunk is added to still begins with the two bytes that are not HEAD HEAD, so nothing is consumed (R180). -/
theorem process_of_stalled {s : State} (h : Stalled s) (chunk : Bytes) :
    framesOf (s.hostRetained ++ chunk) = [] ∧ consumedOf (s.hostRetained ++ chunk) = 0 := by
  obtain ⟨b0, b1, r, hr, hne⟩ := h
  rw [hr]
  exact process_of_unopened hne (r ++ chunk)

/-- The retained bytes only grow at their end: the desync stays (R180). -/
theorem stalled_of_append {s t : State} {x : Bytes} (h : Stalled s) (ht : t.hostRetained = s.hostRetained ++ x) :
    Stalled t := by
  obtain ⟨b0, b1, r, hr, hne⟩ := h
  exact ⟨b0, b1, r ++ x, by rw [ht, hr]; rfl, hne⟩

/-- PROCESS completes only where there is room (R173). -/
theorem hasRoom_of_exec_process_next {buf : Bytes} {s t : State} (h : exec (.process buf) s = .next t) :
    hasRoom s.params buf = true := by
  rcases execProcess_cases buf s with ⟨-, l, hl, -⟩ | ⟨hr, -⟩
  · rw [exec, hl] at h; cases h
  · exact hr

/-- A receive iteration completes only where there is room (R173). -/
theorem hasRoom_of_serveRecv_next {chunk : Bytes} {s t : State} (h : serveRecv chunk s = .next t) :
    hasRoom s.params (s.hostRetained ++ chunk) = true := by
  rw [serveRecv] at h
  split at h
  · rename_i u hexec
    exact hasRoom_of_exec_process_next hexec
  · cases h
  · cases h

/-- Settles O57: a step keeps the retained bytes, or adds a chunk to them and drops none, as PROCESS consumes none, or opens
or closes the connection. -/
theorem stallOutlivesEveryStep : Obligations.StallOutlivesEveryStep := by
  intro s t hstall hstep
  constructor
  · rcases step_hostRetained hstep with hkept | ⟨-, chunk, -, -, hdrop⟩ | ⟨hs, hconn, -⟩
    · exact .inl (stalled_of_append (x := []) hstall (by rw [hkept, List.append_nil]))
    · obtain ⟨-, hnone⟩ := process_of_stalled hstall chunk
      rw [hnone, List.drop_zero] at hdrop
      exact .inl (stalled_of_append hstall hdrop)
    · exact .inr ⟨hs, hconn⟩
  · intro chunk rest hs hq
    obtain ⟨hframes, hnone⟩ := process_of_stalled hstall chunk
    have hserve : serveRecv chunk { s with inbox := rest } = .next t := (step_of_ready_cons hs hq).symm.trans hstep
    have hnext := step_recv_of_hasRoom hs hq (hasRoom_of_serveRecv_next (s := { s with inbox := rest }) hserve)
    rw [hstep, hnone] at hnext
    cases hnext
    exact ⟨by simp [processed, hframes], hnone, rfl⟩

end Sys2Proof.Machine
end

section
/-! PROOFS. Streams of frames: PROCESS takes a frame free of `55 55` with its delimiters and goes on as on the rest alone
(R175); and what a checksum of 0x55 does to that (R179). -/

namespace Sys2Proof.Machine

/-! ### The first closing pair of a frame -/

/-- A frame free of `55 55` ends where the first closing pair stands (R165, R175). -/
theorem tailSplit_of_tailFree {f : Bytes} (h : TailFree f) (r : Bytes) :
    tailSplit (f ++ 0x55 :: 0x55 :: r) = some (f, r) := by
  induction f with
  | nil => rfl
  | cons a f ih =>
    have hrest : TailFree f := fun hpair => h (hpair.trans (List.suffix_cons a _).isInfix)
    have hfirst : ¬ (a = 0x55 ∧ (f ++ 0x55 :: 0x55 :: r).head? = some 0x55) := by
      rintro ⟨rfl, hhead⟩
      cases f with
      | nil => exact h List.infix_rfl
      | cons c f =>
        obtain rfl : c = 0x55 := Option.some.inj hhead
        exact h ⟨[], f ++ [0x55], rfl⟩
    rw [List.cons_append, tailSplit_cons hfirst, ih hrest]
    rfl

/-- Bytes with no `55 55` among them hold no closing pair (R166). -/
theorem tailSplit_eq_none {w : Bytes} (h : ¬ [0x55, 0x55] <:+: w) : tailSplit w = none := by
  cases ht : tailSplit w with
  | none => rfl
  | some p =>
    obtain ⟨f, r⟩ := p
    exact absurd ⟨f, r, by rw [tailSplit_some ht]; simp⟩ h

/-! ### PROCESS of a frame and a rest -/

/-- `parse` needs no more steps than the buffer has bytes (R174). -/
theorem parse_eq_of_length_le {n m : Nat} {buf : Bytes} (hn : buf.length ≤ n) (hm : buf.length ≤ m) :
    parse n buf = parse m buf := by
  induction n generalizing m buf with
  | zero =>
    obtain rfl : buf = [] := List.length_eq_zero_iff.1 (Nat.le_zero.1 hn)
    exact (parse_nil m).symm
  | succ n ih =>
    match buf, m, hm with
    | [], m, _ => rw [parse_nil, parse_nil]
    | [a], m, _ => rw [parse_singleton, parse_singleton]
    | a :: b :: r, m + 1, hm =>
      by_cases hh : a = 0xAA ∧ b = 0xAA
      · obtain ⟨rfl, rfl⟩ := hh
        cases ht : tailSplit r with
        | none => rw [parse_unclosed _ ht, parse_unclosed _ ht]
        | some q =>
          obtain ⟨f, r'⟩ := q
          have hlen := congrArg List.length (tailSplit_some ht)
          simp only [List.length_append, List.length_cons] at hlen hn hm
          rw [parse_closed n ht, parse_closed m ht, ih (m := m) (by omega) (by omega)]
      · rw [parse_unopened _ hh, parse_unopened _ hh]

/-- `parse` with enough steps finds PROCESS's frames and count. -/
theorem parse_eq_process {n : Nat} {buf : Bytes} (hn : buf.length ≤ n) : parse n buf = (framesOf buf, consumedOf buf) := by
  rw [framesOf_eq_parse, consumedOf_eq_parse]
  exact parse_eq_of_length_le hn le_rfl

/-- A frame free of `55 55` between its delimiters is taken whole, and what follows is processed as it would be alone. -/
theorem process_of_frame {f : Bytes} (h : TailFree f) (r : Bytes) :
    framesOf (0xAA :: 0xAA :: (f ++ 0x55 :: 0x55 :: r)) = f :: framesOf r ∧
    consumedOf (0xAA :: 0xAA :: (f ++ 0x55 :: 0x55 :: r)) = f.length + 4 + consumedOf r := by
  have hparse := parse_closed (f.length + 3 + r.length) (tailSplit_of_tailFree h r)
  rw [parse_eq_process (by simp; omega), parse_eq_process (by omega)] at hparse
  exact Prod.mk.inj hparse

/-- Settles O33, frame by frame. -/
theorem framedStreamIsParsed : Obligations.FramedStreamIsParsed := by
  intro frames rest h
  induction frames with
  | nil => exact ⟨rfl, (Nat.zero_add _).symm⟩
  | cons f fs ih =>
    obtain ⟨hf, hfs⟩ := List.forall_mem_cons.1 h
    obtain ⟨hframes, hcount⟩ := ih hfs
    have hstream : framed (f :: fs) ++ rest = 0xAA :: 0xAA :: (f ++ 0x55 :: 0x55 :: (framed fs ++ rest)) := by
      simp [framed]
    obtain ⟨hframe, htaken⟩ := process_of_frame hf (framed fs ++ rest)
    rw [hstream, hframe, htaken, hframes, hcount]
    refine ⟨rfl, ?_⟩
    simp only [framed, List.length_append, List.length_cons, List.length_nil]
    omega

/-- One frame free of `55 55` before bytes of which PROCESS consumes nothing. -/
theorem process_of_frame_stalled {f rest : Bytes} (hf : TailFree f) (hrest : framesOf rest = [] ∧ consumedOf rest = 0) :
    framesOf (framed [f] ++ rest) = [f] ∧ consumedOf (framed [f] ++ rest) = (framed [f]).length := by
  obtain ⟨hnone, hzero⟩ := hrest
  have h := framedStreamIsParsed [f] rest (by simpa using hf)
  rwa [hnone, hzero] at h

/-! ### A checksum of 0x55 -/

/-- From bytes that begin with 0x55, PROCESS emits nothing and consumes nothing (R163, R164, R179). -/
theorem process_of_tail_head (x : Bytes) : framesOf (0x55 :: x) = [] ∧ consumedOf (0x55 :: x) = 0 := by
  cases x with
  | nil => exact (framesOf_nil_and_consumedOf_zero_iff _).2 (parse_singleton _ _)
  | cons b r => exact process_of_unopened (by simp) r

/-- Where the escaped payload does not end in 0x55, the checksum and the first byte of TAIL TAIL close the frame. -/
theorem wireFrame_of_getLast_ne {p : Bytes} (hk : checksum p = 0x55) (hl : (escape p).getLast? ≠ some 0x55) :
    TailFree (escape p) ∧ wireFrame p = framed [escape p] ++ [0x55] := by
  constructor
  · intro hpair
    rcases List.infix_concat_iff.1 hpair with hend | hinside
    · obtain ⟨⟨u, hu⟩, -⟩ := (List.suffix_append_inj_of_length_eq (l₁ := [0x55]) rfl).1 hend
      exact hl (by rw [← hu, List.getLast?_concat])
    · exact not_pair_infix_escape (.inr rfl) p hinside
  · rw [wireFrame_eq, hk]
    simp [framed]

/-- Where it ends in 0x55, that byte and the checksum close the frame. -/
theorem wireFrame_of_getLast_eq {p : Bytes} (hk : checksum p = 0x55) (hl : (escape p).getLast? = some 0x55) :
    TailFree (escape p).dropLast ∧ wireFrame p = framed [(escape p).dropLast] ++ [0x55, 0x55] := by
  have hsplit : (escape p).dropLast ++ [0x55] = escape p := List.dropLast_append_getLast? _ hl
  constructor
  · rw [TailFree, hsplit]
    exact not_pair_infix_escape (.inr rfl) p
  · rw [wireFrame_eq, hk, ← hsplit]
    simp [framed]

/-- A frame PROCESS cuts short leaves the byte 0x55 and what follows it; from there nothing is parsed (R179, R180). -/
theorem process_of_truncated {w f r : Bytes} (hf : TailFree f) (hw : w = framed [f] ++ 0x55 :: r) :
    framesOf w = [f] ∧ consumedOf w = (framed [f]).length ∧
    ∀ more, framesOf (w.drop (consumedOf w) ++ more) = [] ∧ consumedOf (w.drop (consumedOf w) ++ more) = 0 := by
  subst hw
  obtain ⟨hframes, hcount⟩ := process_of_frame_stalled hf (process_of_tail_head r)
  refine ⟨hframes, hcount, fun more => ?_⟩
  rw [hcount, List.drop_left]
  exact process_of_tail_head (r ++ more)

/-- Settles O35: the frame that is found is the escaped payload, or all of it but the 0x55 it ends in. -/
theorem checksum55TruncatesTheFrame : Obligations.Checksum55TruncatesTheFrame := by
  intro p hk
  by_cases hl : (escape p).getLast? = some 0x55
  · obtain ⟨hfree, hw⟩ := wireFrame_of_getLast_eq hk hl
    obtain ⟨hframes, hcount, hstall⟩ := process_of_truncated hfree hw
    exact ⟨fun hne => absurd hl hne, fun _ => ⟨hframes, by rw [hcount, hw]; simp⟩, hstall⟩
  · obtain ⟨hfree, hw⟩ := wireFrame_of_getLast_ne hk hl
    obtain ⟨hframes, hcount, hstall⟩ := process_of_truncated hfree hw
    exact ⟨fun _ => ⟨hframes, by rw [hcount, hw]; simp⟩, fun heq => absurd heq hl, hstall⟩

end Sys2Proof.Machine
end

section
/-! PROOFS. What PROCESS's loop has done wherever it stands: the bytes it has scanned are the frames it has emitted between
their delimiters and the frame in progress (R165, R171, R175, R33). -/

namespace Sys2Proof.Machine

/-! ### One pass over the window -/

theorem window_cons {s : State} (h : 1 ≤ remaining s) :
    window s = bufRead s s.rsmPos :: s.buf.drop (s.rsmPos + 1) := by
  have hlt : s.rsmPos < s.buf.length := by rw [remaining] at h; omega
  rw [window, bufRead, List.drop_eq_getElem_cons hlt, List.getD_eq_getElem _ _ hlt]

theorem window_cons_cons {s : State} (h : 2 ≤ remaining s) :
    window s = bufRead s s.rsmPos :: bufRead s (s.rsmPos + 1) :: s.buf.drop (s.rsmPos + 2) := by
  have hlt : s.rsmPos + 1 < s.buf.length := by rw [remaining] at h; omega
  rw [window_cons (by omega), List.drop_eq_getElem_cons hlt, bufRead, bufRead, List.getD_eq_getElem _ _ hlt]

/-- Everything a pass that goes on can have done, by the bytes at the scan position (R162, R165, R166, R167). -/
theorem loopPass_go_window {s t : State} (h : loopPass s = .go t) :
    (s.rsmMode = .awaitingFrameStart ∧ (∃ r, window s = 0xAA :: 0xAA :: r) ∧ t = enterFrame s) ∨
    (s.rsmMode = .accumulatingPayload ∧ (∃ r, window s = 0x55 :: 0x55 :: r) ∧ t = closeFrame s) ∨
    (s.rsmMode = .accumulatingPayload ∧
      ∃ a r, window s = a :: r ∧ ¬ (a = 0x55 ∧ r.head? = some 0x55) ∧ t = appendByte a s) := by
  rcases loopPass_go h with ⟨hm, hr, h0, h1, rfl⟩ | ⟨hm, hr, h0, h1, rfl⟩ | ⟨hm, hr, hne, -, rfl⟩
  · exact .inl ⟨hm, ⟨_, by rw [window_cons_cons hr, h0, h1]⟩, rfl⟩
  · exact .inr (.inl ⟨hm, ⟨_, by rw [window_cons_cons hr, h0, h1]⟩, rfl⟩)
  · refine .inr (.inr ⟨hm, _, _, window_cons hr, ?_, rfl⟩)
    rintro ⟨h0, h1⟩
    rw [List.head?_drop] at h1
    obtain ⟨hlt, -⟩ := List.getElem?_eq_some_iff.1 h1
    exact hne ⟨by rw [remaining]; omega, h0, bufRead_of_getElem? h1⟩

/-- The bytes scanned so far and the first ones of the window. -/
theorem take_rsmPos_add (s : State) (k : Nat) :
    s.buf.take (s.rsmPos + k) = s.buf.take s.rsmPos ++ (window s).take k := List.take_add

theorem length_take_rsmPos {s : State} (h : ReassemblerInv s) : (s.buf.take s.rsmPos).length = s.rsmPos := by
  obtain ⟨-, hpos, -⟩ := h
  exact List.length_take_of_le hpos

/-- R33 needs only R33 before the pass. -/
theorem reassemblerInv_loopPass {s t : State} (h : ReassemblerInv s) (hp : loopPass s = .go t) : ReassemblerInv t := by
  rcases loopPass_go hp with ⟨hm, hr, -, -, rfl⟩ | ⟨-, hr, -, -, rfl⟩ | ⟨hm, hr, -, -, rfl⟩
  · exact reassemblerInv_enterFrame h hm hr
  · exact reassemblerInv_closeFrame hr
  · exact reassemblerInv_appendByte h hm hr

/-! ### The bytes scanned -/

/-- The bytes of the frame in progress with its HEAD HEAD; none while awaiting one. -/
def openBytes (s : State) : Bytes :=
  match s.rsmMode with
  | .awaitingFrameStart => []
  | .accumulatingPayload => 0xAA :: 0xAA :: s.rsmAccum

theorem openBytes_awaiting {s : State} (h : s.rsmMode = .awaitingFrameStart) : openBytes s = [] := by
  rw [openBytes, h]

theorem openBytes_accumulating {s : State} (h : s.rsmMode = .accumulatingPayload) :
    openBytes s = 0xAA :: 0xAA :: s.rsmAccum := by
  rw [openBytes, h]

theorem framed_append (fs gs : List Bytes) : framed (fs ++ gs) = framed fs ++ framed gs := by
  induction fs with
  | nil => rfl
  | cons f fs ih => simp [framed, ih]

/-- A loop begun with the outputs of `a` stands at `s` and has emitted `fs`. -/
structure Scanned (a s : State) (fs : List Bytes) : Prop where
  /-- The frames are in EMITTED (R27). -/
  emitted : s.emitted = a.emitted ++ fs
  /-- The same frames are on FRAME_OUT, one event each (R171). -/
  logged : ∃ events, s.portLog = a.portLog ++ events ∧ loggedFrames events = fs ∧ events.length = fs.length
  /-- Each was closed by the first closing pair after its HEAD HEAD (R165). -/
  tailFree : ∀ f ∈ fs, TailFree f
  /-- The cursor stands after them (R25). -/
  cursor : s.rsmCursor = (framed fs).length
  /-- The bytes before the scan position are theirs and the frame in progress (R175). -/
  bytes : s.buf.take s.rsmPos = framed fs ++ openBytes s
  /-- No closing pair stands in the frame in progress, the byte at the scan position included (R166). -/
  unclosed : ¬ [0x55, 0x55] <:+: s.rsmAccum ++ (window s).take 1

/-- No pair stands where at most one byte does. -/
theorem not_pair_infix_take_one (x : Bytes) : ¬ [0x55, 0x55] <:+: x.take 1 := by
  intro h
  have hle := h.length_le
  simp at hle

theorem scanned_initReassembler (buf : Bytes) (s : State) : Scanned s (initReassembler buf s) [] where
  emitted := (List.append_nil _).symm
  logged := ⟨[], (List.append_nil _).symm, rfl, rfl⟩
  tailFree := nofun
  cursor := rfl
  bytes := rfl
  unclosed := not_pair_infix_take_one _

theorem scanned_enterFrame {a s : State} {fs : List Bytes} (h : Scanned a s fs) (hm : s.rsmMode = .awaitingFrameStart)
    (hacc : s.rsmAccum = []) {r : Bytes} (hw : window s = 0xAA :: 0xAA :: r) : Scanned a (enterFrame s) fs where
  emitted := h.emitted
  logged := h.logged
  tailFree := h.tailFree
  cursor := h.cursor
  bytes := by
    calc s.buf.take (s.rsmPos + 2) = s.buf.take s.rsmPos ++ (window s).take 2 := take_rsmPos_add s 2
      _ = framed fs ++ openBytes (enterFrame s) := by
        rw [h.bytes, openBytes_awaiting hm, openBytes_accumulating rfl, enterFrame_rsmAccum, hacc, hw]; simp
  unclosed := by
    rw [enterFrame_rsmAccum, hacc]
    exact not_pair_infix_take_one _

theorem scanned_closeFrame {a s : State} {fs : List Bytes} (h : Scanned a s fs)
    (hm : s.rsmMode = .accumulatingPayload) {r : Bytes} (hw : window s = 0x55 :: 0x55 :: r) :
    Scanned a (closeFrame s) (fs ++ [s.rsmAccum]) := by
  obtain ⟨events, hlog, hframes, hcount⟩ := h.logged
  have hbytes : s.buf.take (s.rsmPos + 2) = framed (fs ++ [s.rsmAccum]) := by
    rw [take_rsmPos_add, h.bytes, openBytes_accumulating hm, hw, framed_append]
    simp [framed]
  have hfree : TailFree s.rsmAccum := by
    have hunclosed := h.unclosed
    rwa [hw] at hunclosed
  exact {
    emitted := by rw [closeFrame_emitted, h.emitted, List.append_assoc]
    logged := by
      refine ⟨events ++ [.frame (lengthField s.rsmAccum) s.rsmAccum], ?_, ?_, ?_⟩
      · rw [closeFrame_portLog, hlog, List.append_assoc]
      · rw [loggedFrames_append, hframes]; rfl
      · rw [List.length_append, List.length_append, hcount]; rfl
    tailFree := by simpa [or_imp, forall_and] using ⟨h.tailFree, hfree⟩
    cursor := by
      have hinv : ReassemblerInv (closeFrame s) := reassemblerInv_closeFrame (by rw [← window_length, hw]; simp)
      rw [closeFrame_rsmCursor, ← hbytes]
      exact (length_take_rsmPos hinv).symm
    bytes := by
      rw [openBytes_awaiting rfl, List.append_nil]
      exact hbytes
    unclosed := not_pair_infix_take_one _ }

/-- A pair that stands in a sequence with two bytes put at its end is those two, or stands before the last of them. -/
theorem pair_infix_concat_concat {x y b c : Byte} {l : Bytes} (h : [x, y] <:+: l ++ [b] ++ [c]) :
    (x = b ∧ y = c) ∨ [x, y] <:+: l ++ [b] := by
  rcases List.infix_concat_iff.1 h with hend | hinside
  · obtain ⟨hb, hc⟩ := (List.suffix_append_inj_of_length_eq (l₁ := [x]) (s₁ := [y]) (s₂ := [c]) rfl).1 hend
    obtain ⟨-, hb⟩ := (List.suffix_append_inj_of_length_eq (l₁ := []) (s₁ := [x]) (s₂ := [b]) rfl).1 hb
    exact .inl ⟨List.singleton_inj.1 hb, List.singleton_inj.1 hc⟩
  · exact .inr hinside

theorem scanned_appendByte {a s : State} {fs : List Bytes} (h : Scanned a s fs) (hm : s.rsmMode = .accumulatingPayload)
    {b : Byte} {r : Bytes} (hw : window s = b :: r) (hne : ¬ (b = 0x55 ∧ r.head? = some 0x55)) :
    Scanned a (appendByte b s) fs where
  emitted := h.emitted
  logged := h.logged
  tailFree := h.tailFree
  cursor := h.cursor
  bytes := by
    calc s.buf.take (s.rsmPos + 1) = s.buf.take s.rsmPos ++ (window s).take 1 := take_rsmPos_add s 1
      _ = framed fs ++ openBytes (appendByte b s) := by
        rw [h.bytes, openBytes_accumulating hm, openBytes_accumulating (s := appendByte b s) hm, hw]; simp
  unclosed := by
    have hold : ¬ [0x55, 0x55] <:+: s.rsmAccum ++ [b] := by
      have hunclosed := h.unclosed
      rwa [hw] at hunclosed
    have hwindow : window (appendByte b s) = r := by rw [window_drop s (appendByte b s) 1 rfl rfl, hw]; rfl
    rw [hwindow, appendByte_rsmAccum]
    cases r with
    | nil => rwa [List.take_nil, List.append_nil]
    | cons c r =>
      intro hpair
      rcases pair_infix_concat_concat hpair with ⟨rfl, rfl⟩ | hinside
      · exact hne ⟨rfl, rfl⟩
      · exact hold hinside

/-- Wherever the loop of a PROCESS stands, R33 holds and the bytes it has scanned are accounted for. -/
theorem scanned_runLoop (buf : Bytes) (s : State) (n : Nat) :
    ReassemblerInv (runLoop n (initReassembler buf s)).state ∧
    ∃ fs, Scanned s (runLoop n (initReassembler buf s)).state fs := by
  refine runLoop_induction (fun t => ReassemblerInv t ∧ ∃ fs, Scanned s t fs) (fun t u ht hp => ?_) n _
    ⟨reassemblerInv_initReassembler buf s, [], scanned_initReassembler buf s⟩
  obtain ⟨hinv, fs, hfs⟩ := ht
  refine ⟨reassemblerInv_loopPass hinv hp, ?_⟩
  obtain ⟨-, -, hawait, -⟩ := hinv
  rcases loopPass_go_window hp with ⟨hm, ⟨r, hw⟩, rfl⟩ | ⟨hm, ⟨r, hw⟩, rfl⟩ | ⟨hm, b, r, hw, hne, rfl⟩
  · obtain ⟨-, hacc⟩ := hawait hm
    exact ⟨fs, scanned_enterFrame hfs hm hacc hw⟩
  · exact ⟨_, scanned_closeFrame hfs hm hw⟩
  · exact ⟨fs, scanned_appendByte hfs hm hw hne⟩

/-- Up to the cursor stand the frames and nothing else (R175). -/
theorem Scanned.take_cursor {a s : State} {fs : List Bytes} (h : Scanned a s fs) (hinv : ReassemblerInv s) :
    s.buf.take s.rsmCursor = framed fs := by
  obtain ⟨hle, -⟩ := hinv
  rw [← Nat.min_eq_left hle, ← List.take_take, h.bytes, h.cursor, List.take_left]

/-- PROCESS of the scanned bytes alone emits the same frames and returns the cursor (R169, R171). -/
theorem Scanned.process_take {a s : State} {fs : List Bytes} (h : Scanned a s fs) :
    framesOf (s.buf.take s.rsmPos) = fs ∧ consumedOf (s.buf.take s.rsmPos) = s.rsmCursor := by
  have hopen : framesOf (openBytes s) = [] ∧ consumedOf (openBytes s) = 0 := by
    cases hm : s.rsmMode with
    | awaitingFrameStart => rw [openBytes_awaiting hm]; exact ⟨rfl, rfl⟩
    | accumulatingPayload =>
      have hnone : ¬ [0x55, 0x55] <:+: s.rsmAccum :=
        fun hpair => h.unclosed (hpair.trans (List.prefix_append _ _).isInfix)
      rw [openBytes_accumulating hm, framesOf_nil_and_consumedOf_zero_iff]
      exact parse_unclosed _ (tailSplit_eq_none hnone)
  obtain ⟨hnone, hzero⟩ := hopen
  have hparsed := framedStreamIsParsed fs (openBytes s) h.tailFree
  rwa [hnone, hzero, List.append_nil, Nat.add_zero, ← h.bytes, ← h.cursor] at hparsed

/-! ### The whole buffer -/

theorem buf_parsed (buf : Bytes) : (parsed buf).buf = buf := by
  obtain ⟨-, -, -, hbuf, -⟩ := runLoop_frame (buf.length + 1) (initReassembler buf State.reset)
  exact hbuf

theorem reassemblerInv_parsed (buf : Bytes) : ReassemblerInv (parsed buf) := (scanned_runLoop buf _ _).1

theorem scanned_parsed (buf : Bytes) : Scanned State.reset (parsed buf) (framesOf buf) := by
  obtain ⟨-, fs, hfs⟩ := scanned_runLoop buf State.reset (buf.length + 1)
  have hframes : framesOf buf = fs := hfs.emitted
  rw [hframes]
  exact hfs

/-- Settles O32, from where PROCESS's loop ends. -/
theorem consumedPrefixIsTheEmittedFrames : Obligations.ConsumedPrefixIsTheEmittedFrames := by
  intro buf
  have hscan := scanned_parsed buf
  have hprefix := hscan.take_cursor (reassemblerInv_parsed buf)
  rw [buf_parsed] at hprefix
  exact ⟨hprefix, hscan.tailFree⟩

end Sys2Proof.Machine
end

section
/-! PROOFS. What a whole PROCESS answers: where it completes, what it leaves then, and where it faults (R160, R169-R176). -/

namespace Sys2Proof.Machine

/-! ### The loop ends -/

/-- A pass that goes on moves the scan position on, never past the buffer's end (R174). -/
theorem rsmPos_of_loopPass_go {s t : State} (h : loopPass s = .go t) :
    s.rsmPos < t.rsmPos ∧ t.buf = s.buf ∧ t.rsmPos ≤ t.buf.length := by
  rcases loopPass_go h with ⟨-, hr, -, -, rfl⟩ | ⟨-, hr, -, -, rfl⟩ | ⟨-, hr, -, -, rfl⟩ <;> rw [remaining] at hr
  · exact ⟨by simp, rfl, by simp; omega⟩
  · exact ⟨by simp, rfl, by simp; omega⟩
  · exact ⟨by simp, rfl, by simp; omega⟩

/-- A loop that has not ended has moved the scan position on once a pass (R174). -/
theorem rsmPos_of_runLoop_go {n : Nat} {s t : State} (hpos : s.rsmPos ≤ s.buf.length) (h : runLoop n s = .go t) :
    s.rsmPos + n ≤ s.buf.length := by
  induction n generalizing s with
  | zero => exact hpos
  | succ n ih =>
    rw [runLoop] at h
    cases hp : loopPass s with
    | go u =>
      rw [hp] at h
      obtain ⟨hlt, hbuf, hle⟩ := rsmPos_of_loopPass_go hp
      have hrest := ih hle h
      rw [hbuf] at hrest
      omega
    | stop u => rw [hp] at h; cases h
    | full u => rw [hp] at h; cases h

/-- Settles O31: more passes than the buffer has bytes would move the scan position past its end. -/
theorem processLoopTerminates : Obligations.ProcessLoopTerminates := by
  refine ⟨fun s t => rsmPos_of_loopPass_go, fun buf s t h => ?_⟩
  have hle := rsmPos_of_runLoop_go (Nat.zero_le _) h
  simp at hle

/-! ### PROCESS completes -/

theorem reassemblerInv_processed (buf : Bytes) (s : State) : ReassemblerInv (processed buf s) := by
  have h := reassemblerInv_parsed buf
  rw [ReassemblerInv, buf_parsed] at h
  exact h

/-- Settles O29: with room PROCESS leaves `processed buf s`, and where its loop ends R33 holds and the events are the
frames. -/
theorem processCompletes : Obligations.ProcessCompletes := by
  intro s buf hr
  obtain ⟨events, hlog, hframes, hcount⟩ := (scanned_parsed buf).logged
  refine ⟨processed buf s, events, countField buf (consumedOf buf), exec_process_of_hasRoom hr, rfl, rfl, ?_,
    hframes, hcount, countField_toNat buf, rfl, reassemblerInv_processed buf s, rfl, rfl, rfl, rfl, rfl, rfl, rfl⟩
  have hevents : (parsed buf).portLog = events := hlog
  rw [List.append_assoc, ← hevents]
  rfl

/-- Settles O30: in both states PROCESS found room, and what `processed` takes from the state before it only appends to. -/
theorem processDependsOnlyOnTheBuffer : Obligations.ProcessDependsOnlyOnTheBuffer := by
  intro s₁ s₂ t₁ t₂ buf h₁ h₂
  rw [exec_process_of_hasRoom (hasRoom_of_exec_process_next h₁)] at h₁
  rw [exec_process_of_hasRoom (hasRoom_of_exec_process_next h₂)] at h₂
  cases h₁
  cases h₂
  exact ⟨⟨framesOf buf, rfl, rfl⟩, ⟨processEvents buf, rfl, rfl⟩, rfl, rfl, rfl, rfl⟩

/-! ### PROCESS faults -/

/-- An operand beyond BUF_CAP or CNT_WIDTH faults at once (R173, R214). -/
theorem exec_process_of_overCapacity {buf : Bytes} {s : State} (h : overCapacity s.params buf.length = true) :
    exec (.process buf) s = .fault (.capacityExceeded (markFault s)) :=
  if_pos h

theorem overCapacity_iff (p : Params) (n : Nat) :
    overCapacity p n = true ↔
      (∃ cap, p.bufCap = some cap ∧ cap < n) ∨ (∃ w, p.cntWidth = some w ∧ 2 ^ w ≤ n) := by
  rw [overCapacity, Bool.or_eq_true]
  cases p.bufCap <;> cases p.cntWidth <;> simp

/-- Settles O42: the check on the operand comes before any write. -/
theorem longOperandFaults : Obligations.LongOperandFaults :=
  fun _ _ h => exec_process_of_overCapacity ((overCapacity_iff _ _).2 h)

/-- Settles O44: no frame is longer than the buffer, which is no longer than BUF_CAP. -/
theorem roomyAccumulatorNeverFaults : Obligations.RoomyAccumulatorNeverFaults := by
  intro s buf a b ha hb hle hover
  have hlen : buf.length ≤ b := by
    by_contra hlt
    rw [overCapacity_of_bufCap hb (by omega)] at hover
    cases hover
  have hroom : hasRoom s.params buf = true := hasRoom_of_length hover (by rw [ha]; exact hlen.trans hle)
  exact ⟨_, exec_process_of_hasRoom hroom⟩

/-- A loop that finds the accumulator full stands where a pass finds it so (R216). -/
theorem loopPass_of_runLoop_full {n : Nat} {s t : State} (h : runLoop n s = .full t) : loopPass t = .full t := by
  induction n generalizing s with
  | zero => cases h
  | succ n ih =>
    rw [runLoop] at h
    cases hp : loopPass s with
    | go u => rw [hp] at h; exact ih h
    | stop u => rw [hp] at h; cases h
    | full u =>
      rw [hp] at h
      cases h
      obtain ⟨rfl, -⟩ := loopPass_full hp
      exact hp

/-- A full accumulator within its capacity holds as many bytes as that (R173). -/
theorem accumCap_of_full {s : State} (hf : accumFull s = true)
    (hle : ∀ cap, s.params.accumCap = some cap → s.rsmAccum.length ≤ cap) :
    s.params.accumCap = some s.rsmAccum.length := by
  unfold accumFull at hf
  cases hc : s.params.accumCap with
  | none => rw [hc] at hf; cases hf
  | some cap =>
    rw [hc] at hf
    have hge : cap ≤ s.rsmAccum.length := of_decide_eq_true hf
    rw [le_antisymm hge (hle cap hc)]

/-- The loop of a PROCESS keeps the accumulator within ACCUM_CAP (R173). -/
theorem length_rsmAccum_le {buf : Bytes} {n cap : Nat} {s : State} (h : s.params.accumCap = some cap) :
    (runLoop n (initReassembler buf s)).state.rsmAccum.length ≤ cap :=
  (runLoop_within (e := s.emitted) n (s := initReassembler buf s) h ⟨Nat.zero_le _, [], by simp, nofun⟩).1

/-- Where a PROCESS's loop finds the accumulator full, it has kept what every loop keeps. -/
theorem scanned_of_runLoop_full {buf : Bytes} {n : Nat} {s u : State} (h : runLoop n (initReassembler buf s) = .full u) :
    LoopFrame (initReassembler buf s) u ∧ ReassemblerInv u ∧ ∃ fs, Scanned s u fs := by
  have hframe := runLoop_frame n (initReassembler buf s)
  have hscan := scanned_runLoop buf s n
  rw [h] at hframe hscan
  exact ⟨hframe, hscan⟩

/-- There it stands inside a frame at a byte of the buffer, and the accumulator holds ACCUM_CAP bytes (R173). -/
theorem rsmAccum_of_runLoop_full {buf : Bytes} {n : Nat} {s u : State} (h : runLoop n (initReassembler buf s) = .full u) :
    u.rsmPos < buf.length ∧ s.params.accumCap = some u.rsmAccum.length ∧ u.rsmMode = .accumulatingPayload := by
  obtain ⟨-, hmode, hrem, hfull⟩ := loopPass_full (loopPass_of_runLoop_full h)
  obtain ⟨⟨hparams, -, -, hbuf, -⟩, -⟩ := scanned_of_runLoop_full h
  rw [initReassembler_params] at hparams
  rw [remaining, hbuf, initReassembler_buf] at hrem
  have hcap := accumCap_of_full hfull fun cap hc => by
    have hle := length_rsmAccum_le (buf := buf) (n := n) (hparams ▸ hc)
    rwa [h] at hle
  exact ⟨by omega, hparams ▸ hcap, hmode⟩

/-- A PROCESS that faults on a buffer of acceptable length found its accumulator full (R173). -/
theorem runLoop_of_exec_process_fault {buf : Bytes} {s l : State} (ho : overCapacity s.params buf.length = false)
    (h : exec (.process buf) s = .fault (.capacityExceeded l)) :
    ∃ u, l = markFault u ∧ runLoop (buf.length + 1) (initReassembler buf s) = .full u := by
  rw [exec, execProcess, if_neg (by simp [ho])] at h
  cases hr : runLoop (buf.length + 1) (initReassembler buf s) with
  | go u => rw [hr] at h; cases h
  | stop u => rw [hr] at h; cases h
  | full u => rw [hr] at h; cases h; exact ⟨u, rfl, rfl⟩

/-- PROCESS faults exactly where there is no room (R173). -/
theorem exec_process_fault_iff (buf : Bytes) (s : State) :
    (∃ l, exec (.process buf) s = .fault (.capacityExceeded l)) ↔ hasRoom s.params buf = false := by
  constructor
  · rintro ⟨l, hl⟩
    by_contra hr
    rw [exec_process_of_hasRoom (by simpa using hr)] at hl
    cases hl
  · intro hr
    rcases execProcess_cases buf s with ⟨-, l, hl, -⟩ | ⟨hroom, -⟩
    · exact ⟨markFault l, hl⟩
    · rw [hr] at hroom; cases hroom

/-- Settles O43: a fault of the loop leaves the state it stands in, in which the bytes scanned are accounted for. -/
theorem faultKeepsEmittedFrames : Obligations.FaultKeepsEmittedFrames := by
  intro s buf
  have hiff := exec_process_fault_iff buf s
  refine ⟨hiff.2, fun l hl => ⟨hiff.1 ⟨l, hl⟩, fun ho => ?_, fun ho => ?_⟩⟩
  · rw [exec_process_of_overCapacity ho] at hl
    cases hl
    rfl
  · obtain ⟨u, rfl, hu⟩ := runLoop_of_exec_process_fault ho hl
    obtain ⟨hpos, hcap, hmode⟩ := rsmAccum_of_runLoop_full hu
    obtain ⟨hframe, hinv, fs, hscan⟩ := scanned_of_runLoop_full hu
    obtain ⟨hparams, hck, -, hbuf, hop, hinbox, hret, htx, -, -⟩ := hframe
    obtain ⟨hframes, hcount⟩ := hscan.process_take
    rw [show u.buf = buf from hbuf] at hframes hcount
    subst hframes
    exact ⟨rfl, hbuf, hpos, hcap, hmode, hinv, hscan.emitted, hcount.symm, hscan.logged, hck, hparams, hop, hinbox,
      hret, htx⟩

end Sys2Proof.Machine
end

section
/-! PROOFS. A stream received in chunks: where it is cut does not matter (R178), and after a desync it yields nothing
(R180). -/

namespace Sys2Proof.Machine

/-! ### PROCESS of a buffer in two parts -/

/-- Every buffer is the frames it yields and the bytes that are left (R175). -/
theorem framed_append_drop_consumed (buf : Bytes) : framed (framesOf buf) ++ buf.drop (consumedOf buf) = buf := by
  rw [← (consumedPrefixIsTheEmittedFrames buf).1, List.take_append_drop]

/-- The consumed count is the length of the emitted frames between their delimiters (R175). -/
theorem consumedOf_eq_length (buf : Bytes) : consumedOf buf = (framed (framesOf buf)).length := (scanned_parsed buf).cursor

/-- PROCESS of a buffer with more bytes after it emits what PROCESS of the buffer emits, then what PROCESS of the bytes
left and those after it emits (R178). -/
theorem process_append (buf more : Bytes) :
    framesOf (buf ++ more) = framesOf buf ++ framesOf (buf.drop (consumedOf buf) ++ more) ∧
    consumedOf (buf ++ more) = consumedOf buf + consumedOf (buf.drop (consumedOf buf) ++ more) := by
  have h := framedStreamIsParsed (framesOf buf) (buf.drop (consumedOf buf) ++ more)
    (consumedPrefixIsTheEmittedFrames buf).2
  rwa [← List.append_assoc, framed_append_drop_consumed, ← consumedOf_eq_length] at h

/-- What is left of the two parts is what is left of the rest of the first with the second after it (R178). -/
theorem drop_consumed_append (buf more : Bytes) :
    (buf ++ more).drop (consumedOf (buf ++ more)) =
      (buf.drop (consumedOf buf) ++ more).drop (consumedOf (buf.drop (consumedOf buf) ++ more)) := by
  obtain ⟨-, hcount⟩ := process_append buf more
  have hle : consumedOf buf ≤ buf.length := by
    have hlen := congrArg List.length (framed_append_drop_consumed buf)
    rw [List.length_append, ← consumedOf_eq_length] at hlen
    omega
  rw [hcount, ← List.drop_drop, List.drop_append_of_le_length hle]

/-! ### A run of receive iterations -/

/-- From retained bytes that hold no complete frame at their front, chunks received one after another yield what one
PROCESS of all these bytes yields (R56, R178). -/
theorem run_recv_chunks (chunks : List Bytes) {s : State} (hs : Ready s) (hu : Unbounded s.params)
    (hquiet : RetainedQuiet s) (hq : s.inbox = chunks.map .recv) :
    ∃ t, core.run chunks.length s = .next t ∧
      t.emitted = s.emitted ++ framesOf (s.hostRetained ++ chunks.flatten) ∧
      t.hostRetained = (s.hostRetained ++ chunks.flatten).drop (consumedOf (s.hostRetained ++ chunks.flatten)) := by
  induction chunks generalizing s with
  | nil =>
    obtain ⟨hframes, hcount⟩ := hquiet
    exact ⟨s, rfl, by simp [hframes], by simp [hcount]⟩
  | cons chunk chunks ih =>
    have hstep := step_recv_of_hasRoom hs hq (hasRoom_of_unbounded hu _)
    obtain ⟨t, hrun, hemitted, hretained⟩ := ih (s := { processed (s.hostRetained ++ chunk)
        { s with inbox := chunks.map .recv } with
      hostRetained := (s.hostRetained ++ chunk).drop (consumedOf (s.hostRetained ++ chunk)) })
      hs hu (retainedQuiet_of_drop rfl) rfl
    obtain ⟨hframes, -⟩ := process_append (s.hostRetained ++ chunk) chunks.flatten
    refine ⟨t, (run_succ_of_step_next (M := core) _ hstep).trans hrun, ?_, ?_⟩
    · rw [List.flatten_cons, ← List.append_assoc, hframes, ← List.append_assoc]
      exact hemitted
    · rw [List.flatten_cons, ← List.append_assoc, drop_consumed_append]
      exact hretained

/-- Settles O48: with nothing retained there is no complete frame to begin with. -/
theorem chunkBoundariesDoNotMatter : Obligations.ChunkBoundariesDoNotMatter := by
  intro s chunks hs hu hempty hq
  have h := run_recv_chunks chunks hs hu (retainedQuiet_of_drop (buf := []) hempty) hq
  rwa [hempty, List.nil_append] at h

/-- Bytes that begin with two others than HEAD HEAD hold no complete frame at their front (R164). -/
theorem retainedQuiet_of_stalled {s : State} (h : Stalled s) : RetainedQuiet s := by
  have hnone := process_of_stalled h []
  rwa [List.append_nil] at hnone

/-- Settles O49: PROCESS of the retained bytes and all the chunks yields nothing, and so do the chunks one by one. -/
theorem desyncIsPermanent : Obligations.DesyncIsPermanent := by
  intro s chunks b0 b1 r hs hu hr hne hq
  have hstall : Stalled s := ⟨b0, b1, r, hr, hne⟩
  obtain ⟨hframes, hcount⟩ := process_of_stalled hstall chunks.flatten
  have h := run_recv_chunks chunks hs hu (retainedQuiet_of_stalled hstall) hq
  rwa [hframes, hcount, List.append_nil, List.drop_zero] at h

end Sys2Proof.Machine
end

section
/-! PROOFS. RSM_RESET: the start values, an empty response, and nothing else (R200). -/

namespace Sys2Proof.Machine

/-- The length in front of an empty result (R82). -/
theorem lengthField_nil : lengthField [] = 0 :=
  lengthField_eq (v := []) (by decide : 0 < 2 ^ 32)

/-- RSM_RESET with the empty operand R85 asks for: start values for the empty buffer, then an empty response (R200). -/
theorem exec_rsmReset_nil (s : State) : exec (.rsmReset []) s = .next (respond [] (initReassembler [] s)) := by
  rw [exec, execRsmReset, if_pos List.length_nil]

/-- Settles O36: `initReassembler` writes the Reassembler alone, and `respond` appends the one response of length 0. -/
theorem rsmResetDiscardsTheFrame : Obligations.RsmResetDiscardsTheFrame := by
  intro s
  rw [exec_rsmReset_nil, respond, lengthField_nil, initReassembler]

end Sys2Proof.Machine
end

section
/-! PROOFS. Faults as a host meets them: none from a well-formed command under the default capacities (R210), and no way on
from a state that has the mark (R213, R217). -/

namespace Sys2Proof.Machine

/-! ### No step from a faulted state -/

/-- Marking a state that is marked changes nothing (R213, R216). -/
theorem markFault_of_faultMark {s : State} (hf : s.faultMark = true) : markFault s = s := by
  rw [markFault, ← hf]

/-- A faulted state answers the fault again, and is the state left (R217, log entry 9). -/
theorem step_of_faultMark {s : State} (hf : s.faultMark = true) : step s = .fault (.capacityExceeded s) := by
  rw [step, if_pos hf, raiseCapacity_eq, markFault_of_faultMark hf]

/-- Settles O45: the run stops at its first step, which is the fault. -/
theorem faultIsSticky : Obligations.FaultIsSticky :=
  fun n _ hf => run_succ_of_step_fault (M := core) n (step_of_faultMark hf)

/-! ### Well-formed commands -/

/-- With the default capacities every well-formed command completes: the three whose operand length is fixed have that
length (R85), the two codec operations return on every operand, and PROCESS has room for every buffer (R173, R210). -/
theorem exec_command_completes {s : State} {i : Instr} {lenBytes : Nat} (hu : Unbounded s.params)
    (hi : isCommand i = true) (hw : WellFormed lenBytes i = true) : ∃ t, exec i s = .next t := by
  cases i with
  | escape x => exact ⟨_, rfl⟩
  | unescape x => exact ⟨_, rfl⟩
  | cksum16 opd =>
    obtain ⟨-, hlen⟩ := Bool.and_eq_true_iff.1 hw
    exact ⟨_, exec_cksum16_of_length (beq_iff_eq.1 hlen) s⟩
  | encode opd =>
    obtain ⟨-, hlen⟩ := Bool.and_eq_true_iff.1 hw
    exact ⟨_, exec_encode_of_length (beq_iff_eq.1 hlen) s⟩
  | process buf => exact ⟨_, exec_process_of_hasRoom (hasRoom_of_unbounded hu buf)⟩
  | rsmReset opd =>
    obtain rfl : opd = [] := List.eq_nil_of_length_eq_zero (beq_iff_eq.1 hw)
    exact ⟨_, exec_rsmReset_nil s⟩
  | _ => cases hi

/-- Settles O9: the step executes what the packet decodes to, which is a command, and taking the request off the queue
leaves the capacities as they were. -/
theorem wellFormedCommandCompletes : Obligations.WellFormedCommandCompletes := by
  intro s pkt rest i hs hu hq hd hw
  rw [stepRunsTheDecodedInstruction.1 s pkt rest i hs hq hd]
  exact exec_command_completes (s := { s with inbox := rest }) hu (isCommand_of_decode hd) hw

end Sys2Proof.Machine
end

section
/-! PROOFS. Reset: its value for every element, what it leaves to the host, and the idle core after it (R240 to R242). -/

namespace Sys2Proof.Machine

/-! ### The values of reset -/

/-- The start state is itself a state that reset leaves, so what holds after every reset holds at the start. -/
theorem exists_eq_hardReset {r : State} (h : r = State.reset ∨ ∃ s, r = hardReset s) : ∃ s, r = hardReset s := by
  obtain rfl | hlater := h
  · exact ⟨State.reset, hardReset_reset.symm⟩
  · exact hlater

/-- Settles O37: the values are those `hardReset` gives, whatever state it is applied to. -/
theorem hardResetSetsEveryElement : Obligations.HardResetSetsEveryElement := by
  refine ⟨fun r hr => ?_, fun s => ⟨hardReset_hostRetained s, hardReset_txStream s⟩⟩
  obtain ⟨s, rfl⟩ := exists_eq_hardReset hr
  exact ⟨hardReset_rsmMode s, hardReset_rsmAccum s, hardReset_rsmPos s, hardReset_rsmCursor s, hardReset_ckAcc s,
    hardReset_emitted s, hardReset_faultMark s⟩

/-! ### The idle core -/

/-- Reset clears the fault mark and drops the operation in progress (R240, R241). -/
theorem ready_hardReset (s : State) : Ready (hardReset s) := ⟨hardReset_faultMark s, hardReset_op s⟩

/-- An idle, unfaulted core with an empty queue waits (R242, log entry 9). -/
theorem step_of_ready_nil {s : State} (hs : Ready s) (hq : s.inbox = []) : step s = .next s := by
  obtain ⟨hf, ho⟩ := hs
  simp [step, stepIdle, hf, ho, hq]

/-- Settles O10: the start state is ready because it is one that reset leaves. -/
theorem idleCoreWaits : Obligations.IdleCoreWaits :=
  ⟨hardReset_reset ▸ ready_hardReset State.reset, ready_hardReset, fun _ => step_of_ready_nil⟩

end Sys2Proof.Machine
end

section
/-! PROOFS. The refusals the model names itself: a packet whose length is not the one R81 gives it (log entry 7), and a row
executed where it is not selected (log entry 3). -/

namespace Sys2Proof.Machine

/-! ### Misframed packets -/

/-- The selectors 0x01 to 0x06 name an operation each, whatever the operand (R80). -/
theorem exists_commandOf_eq_some {op : Byte} (hlow : 0x01 ≤ op.toNat) (hhigh : op.toNat ≤ 0x06) (opd : Bytes) :
    ∃ i, commandOf op opd = some i := by
  have hop : op = 0x01 ∨ op = 0x02 ∨ op = 0x03 ∨ op = 0x04 ∨ op = 0x05 ∨ op = 0x06 := by bv_omega
  rcases hop with rfl | rfl | rfl | rfl | rfl | rfl <;> exact ⟨_, rfl⟩

/-- With a selector of R80, what follows OP has to be LEN and as many operand bytes as LEN says (R81, log entry 7). -/
theorem decode_misframed {n : Nat} {op : Byte} {body : Bytes} (hlow : 0x01 ≤ op.toNat) (hhigh : op.toNat ≤ 0x06)
    (hlen : body.length ≠ n + leNat (body.take n)) : decode n (.packet (op :: body)) = .error .malformedPacket := by
  obtain ⟨i, hcommand⟩ := exists_commandOf_eq_some hlow hhigh (body.drop n)
  have hframe : ¬ (n ≤ body.length ∧ (body.drop n).length = leNat (body.take n)) := by
    rintro ⟨hn, hopd⟩
    rw [List.length_drop] at hopd
    omega
  rw [decode, decodePacket, hcommand]
  exact if_neg hframe

/-- An idle core refuses a packet that decodes to nothing, by the name its decoding error has (R212). -/
theorem step_of_decode_error {s : State} {pkt : Bytes} {rest : List Request} {e : DecodeError} (hs : Ready s)
    (hq : s.inbox = .packet pkt :: rest) (hd : decode s.params.lenBytes (.packet pkt) = .error e) :
    step s = .refused (refusalOf e) := by
  rw [step_of_ready_cons hs hq, serve, servePacket, hd]

/-- Settles O8: neither packet decodes, the empty one for want of a selector and the other by its length. -/
theorem misframedPacketIsRefused : Obligations.MisframedPacketIsRefused := by
  intro s rest hs
  exact ⟨fun hq => step_of_decode_error hs hq rfl,
    fun op body hq hlow hhigh hlen => step_of_decode_error hs hq (decode_misframed hlow hhigh hlen)⟩

/-! ### Rows that are not selected -/

/-- The meaning of every row stands behind the check that this row is the one selected (R87, R88, log entry 3). -/
theorem exec_row_eq_whenSelected {i : Instr} (hi : isCommand i = false) (s : State) :
    ∃ o, exec i s = whenSelected i s o := by
  cases i with
  | escape | unescape | cksum16 | encode | process | rsmReset => cases hi
  | _ => exact ⟨_, rfl⟩

/-- Settles O28: the check in front of the row's meaning fails. -/
theorem unselectedRowIsRefused : Obligations.UnselectedRowIsRefused := by
  intro s i hi hn
  obtain ⟨o, hexec⟩ := exec_row_eq_whenSelected hi s
  rw [hexec, whenSelected, if_neg hn]

end Sys2Proof.Machine
end
